-- ==== Sys2Proof/Word.lean ====
section
/-! DEFINITION. The machine word `Word32` and `wrap` (00_scope.md R9, R10). -/

namespace Sys2Proof

/-- `Word32` (R9): a 32-bit value. Memory words, registers and addresses all have this type (R20, R29, R40). -/
abbrev Word := BitVec 32

/-- `wrap(n)` (R10): the word whose unsigned value is `n mod 2^32`, for any integer `n`. -/
def wrap (n : Int) : Word := BitVec.ofInt 32 n

end Sys2Proof
end

