-- ==== Sys2Proof/Syntax.lean ====
section
/-! DEFINITION. The instructions of DM32: one constructor for each row of the opcode table (30_encoding.md R66). -/

namespace Sys2Proof

/-- A register index, 0 to 15 (10_state.md R20). -/
abbrev Reg := Fin 16

/-- The condition mask, one Boolean for each condition code (30_encoding.md R63, R65). -/
structure Mask where
  mM : Bool
  mZ : Bool
  mP : Bool
  mV : Bool
deriving DecidableEq, Repr

/-- The fields every instruction has beside its opcode (R75). `disp` is the signed value of bits 9:0 (R64).
HALT has them too: it ignores all but the mask (R140), and a word's ignored bits are kept (log 10). -/
structure Operands where
  mask : Mask
  rt : Reg
  rs1 : Reg
  rs2 : Reg
  disp : Int
deriving DecidableEq, Repr

/-- The closed operation set of R66. -/
inductive Instr where
  | halt (o : Operands)
  | load (o : Operands)
  | store (o : Operands)
  | add (o : Operands)
  | sub (o : Operands)
  | mul (o : Operands)
  | div (o : Operands)
deriving DecidableEq, Repr

/-- The operand fields of an instruction. -/
def Instr.operands : Instr → Operands
  | .halt o => o
  | .load o => o
  | .store o => o
  | .add o => o
  | .sub o => o
  | .mul o => o
  | .div o => o

end Sys2Proof
end

