-- ==== Sys2Proof/WellFormed.lean ====
section
/-! DEFINITION. Which instruction terms an encoding can hold. Registers and the mask are in range by their types; the
displacement is the one field with a check (30_encoding.md R64, R72). -/

namespace Sys2Proof

/-- The displacement lies in [-512, 511] (R64). -/
abbrev Operands.wf (o : Operands) : Prop := -512 ≤ o.disp ∧ o.disp ≤ 511

/-- Every field of the instruction fits its bits. -/
abbrev Instr.wf (i : Instr) : Prop := i.operands.wf

end Sys2Proof
end

