-- ==== Sys2Proof/Decode.lean ====
section
/-! DEFINITION. The bitfield codec, the decoder and the encoder (30_encoding.md). -/

namespace Sys2Proof

/-! ## The generic codec (R60, R70, R71) -/

/-- The codec's errors (60_exceptions.md R154). They never arise while the CORE runs. -/
inductive CodecError where
  /-- A bad field descriptor: width < 1 or offset + width > 32 (R71). -/
  | contract
  /-- A field value out of range in `insert` or `encode` (R70, R72). -/
  | encodingRange
deriving DecidableEq, Repr

/-- `check_descriptor` (R71). -/
abbrev descriptorOk (width offset : Nat) : Prop := 1 ≤ width ∧ offset + width ≤ 32

/-- `unsigned(w[offset+width-1 : offset])`. -/
def fieldUnsigned (w : Word) (width offset : Nat) : Nat := w.toNat / 2 ^ offset % 2 ^ width

/-- The two's-complement value of the same field. -/
def fieldSigned (w : Word) (width offset : Nat) : Int :=
  if 2 ^ (width - 1) ≤ fieldUnsigned w width offset then (fieldUnsigned w width offset : Int) - 2 ^ width
  else fieldUnsigned w width offset

/-- `extract` (R60). -/
def extractField (w : Word) (width offset : Nat) (signed : Bool) : Except CodecError Int :=
  if descriptorOk width offset then
    .ok (if signed then fieldSigned w width offset else fieldUnsigned w width offset)
  else .error .contract

/-- The values `insert` takes for a field of this width (R70). -/
abbrev insertable (width : Nat) (v : Int) (signed : Bool) : Prop :=
  if signed then -2 ^ (width - 1) ≤ v ∧ v < 2 ^ (width - 1) else 0 ≤ v ∧ v < 2 ^ width

/-- The mask `fm` of R70: ones in the field, zeros elsewhere. -/
def fieldOnes (width offset : Nat) : Word := BitVec.ofNat 32 ((2 ^ width - 1) * 2 ^ offset)

/-- `insert` (R70): the descriptor first, then the range. -/
def insertField (w : Word) (width offset : Nat) (v : Int) (signed : Bool) : Except CodecError Word :=
  if descriptorOk width offset then
    if insertable width v signed then
      .ok ((w &&& ~~~ fieldOnes width offset) ||| BitVec.ofNat 32 ((v % 2 ^ width).toNat * 2 ^ offset))
    else .error .encodingRange
  else .error .contract

/-! ## Decode (R61, R63, R65) -/

/-- The decoded record of R63. `op` may name no operation. -/
structure Decoded where
  op : BitVec 5
  operands : Operands
deriving DecidableEq, Repr

/-- A register field: four bits from `offset` up. -/
def regField (w : Word) (offset : Nat) : Reg := ⟨w.toNat / 2 ^ offset % 16, Nat.mod_lt _ (by decide)⟩

/-- The opcode field, bits 30:26. -/
def opField (w : Word) : BitVec 5 := BitVec.ofNat 5 (fieldUnsigned w 5 26)

/-- The condition mask, bits 25:22 (R65). -/
def maskField (w : Word) : Mask :=
  { mM := w.getLsbD 22, mZ := w.getLsbD 23, mP := w.getLsbD 24, mV := w.getLsbD 25 }

/-- Bits 25:0 as operand fields (R61). -/
def operandFields (w : Word) : Operands :=
  { mask := maskField w, rt := regField w 18, rs1 := regField w 14, rs2 := regField w 10, disp := fieldSigned w 10 0 }

/-- `decode` of R63: total. Bit 31 is read by no field (R68). -/
def decodeFields (w : Word) : Decoded := { op := opField w, operands := operandFields w }

/-- Why a word is no instruction: its opcode names no operation (R67). The control FSM faults on it (40_cycle.md R93). -/
inductive DecodeError where
  | unknownOpcode (op : BitVec 5)
deriving DecidableEq, Repr

/-- The opcode map (R66) applied to a decoded record: the opcode check of 40_cycle.md R93. -/
def Decoded.instr (d : Decoded) : Except DecodeError Instr :=
  match d.op.toNat with
  | 0 => .ok (.halt d.operands)
  | 1 => .ok (.load d.operands)
  | 2 => .ok (.store d.operands)
  | 3 => .ok (.add d.operands)
  | 4 => .ok (.sub d.operands)
  | 5 => .ok (.mul d.operands)
  | 6 => .ok (.div d.operands)
  | _ => .error (.unknownOpcode d.op)

/-- The instruction a word holds, or the opcode that names none. -/
def decode (w : Word) : Except DecodeError Instr := (decodeFields w).instr

/-- The decoder block's outputs (R74). -/
structure DecoderOutputs where
  op : BitVec 5
  mM : Bool
  mZ : Bool
  mP : Bool
  mV : Bool
  rt : BitVec 4
  rs1 : BitVec 4
  rs2 : BitVec 4
  disp32 : Word
  legal : Bool
  isHALT : Bool
  isLOAD : Bool
  isSTORE : Bool
  isADD : Bool
  isSUB : Bool
  isMUL : Bool
  isDIV : Bool
deriving DecidableEq, Repr

/-- The combinational decoder block (R74), on wires. -/
def decoderOutputs (w : Word) : DecoderOutputs :=
  let op := w.extractLsb' 26 5
  { op := op, mM := w.getLsbD 22, mZ := w.getLsbD 23, mP := w.getLsbD 24, mV := w.getLsbD 25
    rt := w.extractLsb' 18 4, rs1 := w.extractLsb' 14 4, rs2 := w.extractLsb' 10 4
    disp32 := (w.extractLsb' 0 10).signExtend 32, legal := op ≤ 6
    isHALT := op = 0, isLOAD := op = 1, isSTORE := op = 2, isADD := op = 3, isSUB := op = 4, isMUL := op = 5
    isDIV := op = 6 }

/-! ## Encode (R66, R72, R73) -/

/-- The mask read as a number: mM·1 + mZ·2 + mP·4 + mV·8 (R65). -/
def Mask.toNat (m : Mask) : Nat := m.mM.toNat + m.mZ.toNat * 2 + m.mP.toNat * 4 + m.mV.toNat * 8

/-- The fields `encode` takes (R72), each within its range. -/
abbrev encodable (op mask rt rs1 rs2 disp : Int) : Prop :=
  (0 ≤ op ∧ op ≤ 31) ∧ (0 ≤ mask ∧ mask ≤ 15) ∧ (0 ≤ rt ∧ rt ≤ 15) ∧ (0 ≤ rs1 ∧ rs1 ≤ 15) ∧
    (0 ≤ rs2 ∧ rs2 ≤ 15) ∧ (-512 ≤ disp ∧ disp ≤ 511)

/-- `encode` of R72: a field packer, by insertion. It takes opcodes 7 to 31 too. -/
def encodeFields (op mask rt rs1 rs2 disp : Int) : Except CodecError Word :=
  if encodable op mask rt rs1 rs2 disp then do
    let w ← insertField 0 5 26 op false
    let w ← insertField w 4 22 mask false
    let w ← insertField w 4 18 rt false
    let w ← insertField w 4 14 rs1 false
    let w ← insertField w 4 10 rs2 false
    insertField w 10 0 disp true
  else .error .encodingRange

/-- The opcode number of an instruction (R66). -/
def Instr.opcode : Instr → Nat
  | .halt _ => 0
  | .load _ => 1
  | .store _ => 2
  | .add _ => 3
  | .sub _ => 4
  | .mul _ => 5
  | .div _ => 6

/-- The closed form of R72, for fields in range. Bit 31 is 0 (R68). -/
def packWord (op : Nat) (o : Operands) : Word :=
  BitVec.ofNat 32 (op * 2 ^ 26 + o.mask.toNat * 2 ^ 22 + o.rt.val * 2 ^ 18 + o.rs1.val * 2 ^ 14 + o.rs2.val * 2 ^ 10
    + (o.disp % 1024).toNat)

/-- The word of a well-formed instruction. -/
def encode (i : Instr) : Word := packWord i.opcode i.operands

/-- The instruction the decoder reads from an instruction whose table bits are `w`: one 32-bit word (R69), the bits
above `nbits` zero. -/
def decodeTableWord (nbits w : Nat) : Option Instr := (decode (BitVec.ofNat 32 (w % 2 ^ nbits))).toOption

end Sys2Proof
end

