-- ==== Sys2Proof/Config.lean ====
section
/-! DEFINITION. The implementation parameters of 00_scope.md R8. The spec leaves no value of an instruction open, so
there is no free value here. -/

namespace Sys2Proof

/-- The four parameters of R8. The source fixes none of their values. -/
structure Config where
  /-- `MEM_WORDS`: memory capacity in 32-bit words. -/
  memWords : Nat
  /-- `START_ADDR`: value of the PC in state Ready. -/
  startAddr : Word
  /-- `IO_IN_ADDR`: word address of the input port. -/
  ioInAddr : Word
  /-- `IO_OUT_ADDR`: word address of the output port. -/
  ioOutAddr : Word
deriving DecidableEq, Repr

/-- The constraints of R8 (and R46). -/
abbrev Config.wf (c : Config) : Prop :=
  1 ≤ c.memWords ∧ c.memWords ≤ 2 ^ 31 ∧ c.ioInAddr.toNat < c.memWords ∧ c.ioOutAddr.toNat < c.memWords ∧
    c.ioInAddr ≠ c.ioOutAddr

/-- The values R8 takes for the test vectors. DESIGN CHOICE (log 2): `State.reset` is constructed with them. -/
def Config.vectors : Config := { memWords := 1024, startAddr := 0, ioInAddr := 510, ioOutAddr := 511 }

end Sys2Proof
end

