-- ==== Sys2Proof/Machine/State.lean ====
section
/-! DEFINITION. The state of the CORE (10_state.md R20 to R34), the reasons a step can stop, construction and reset. -/

namespace Sys2Proof.Machine

/-- The condition codes F. One-hot (R25, 90_conflicts.md C1), so F is the one flag that is set. -/
inductive CondCode where
  | M
  | Z
  | P
  | V
deriving DecidableEq, Repr

/-- `state` of the control FSM (R27). -/
inductive Fsm where
  | ready
  | running
  | halted
  | faulted
deriving DecidableEq, Repr

/-- The `kind` of a memory error (R28). -/
inductive AccessKind where
  | fetch
  | load
  | store
deriving DecidableEq, Repr

/-- The fault record (R28), held when the FSM is Faulted. -/
inductive FaultRecord where
  | memoryBounds (addr : Word) (kind : AccessKind) (pc : Word)
  | unknownOpcode (op : BitVec 5) (pc : Word)
deriving DecidableEq, Repr

/-- Memory as (word address, word) cells: addresses strictly rising, no cell holding zero, which is what an address not
listed reads as (R29). The addressable unit is the 32-bit word, of which no address names a part (20_memory.md R40, R44;
log 4). `Memory.wf` in Ops.lean is the canonical form. -/
abbrev Memory := List (Nat × Word)

/-- The tuple S of R34, with the parameters of R8 beside it (`cfg`, log 1). Entry 0 of `regs` is the store of x[0], never
read (R21, R34), entry 15 the program counter (R24). -/
structure State where
  cfg : Config
  regs : Vector Word 16
  flags : CondCode
  fsm : Fsm
  fault : Option FaultRecord
  mem : Memory
  inq : List Word
  outq : List Word
deriving DecidableEq, Repr

/-- Why no step is enabled. -/
inductive Fault where
  /-- Raised by an executed LOAD from IO_IN_ADDR while `inq` is empty: the CORE is blocked, stays Running, and the same
  LOAD repeats once input arrives (40_cycle.md R104, 60_exceptions.md R166). Not an error of the machine: its own faults
  are next states (R155). Safe: it stops where the spec has no step (log 5). -/
  | blockedOnInput
deriving DecidableEq, Repr

/-- Why the model gives an instruction no meaning. -/
inductive Refusal where
  /-- Raised by an arm of exec without a meaning. No arm is left so. Safe. -/
  | notModelled (mnemonic : String)
deriving DecidableEq, Repr

/-- Construction, the only reset (70_reset_and_hazards.md R180, R185), with the parameters and the environment's input
stream, which are the caller's (R33). -/
def State.construct (cfg : Config) (inq : List Word) : State :=
  { cfg := cfg, regs := (Vector.replicate 16 0).set 15 cfg.startAddr, flags := .Z, fsm := .ready, fault := none,
    mem := [], inq := inq, outq := [] }

/-- The machine right after reset: constructed with the parameters of the test vectors and no input yet
(DESIGN CHOICE, log 2 and 3). -/
def State.reset : State := State.construct Config.vectors []

end Sys2Proof.Machine
end

