-- ==== Sys2Proof/Machine/Ops.lean ====
section
/-! DEFINITION. The named operations on registers, memory and the I/O streams, and taking a fault. -/

namespace Sys2Proof.Machine

/-! ## Field updates -/

/-- F <- f. -/
def State.setFlags (s : State) (f : CondCode) : State := { s with flags := f }

/-- mem <- m. -/
def State.setMem (s : State) (m : Memory) : State := { s with mem := m }

/-- inq <- q. -/
def State.setInq (s : State) (q : List Word) : State := { s with inq := q }

/-- outq <- outq ++ [v]: the output sink takes one value (20_memory.md R49). -/
def State.emit (s : State) (v : Word) : State := { s with outq := s.outq ++ [v] }

/-- state <- f. -/
def State.setFsm (s : State) (f : Fsm) : State := { s with fsm := f }

/-! ## Registers (10_state.md R21, R22; 40_cycle.md R98, R99) -/

/-- x[i] (R21): register 0 reads as zero. -/
def State.readReg (s : State) (i : Reg) : Word := if i = 0 then 0 else s.regs[i]

/-- `WriteReg` (R98): a write to register 0 is discarded. -/
def State.writeReg (s : State) (i : Reg) (v : Word) : State :=
  if i = 0 then s else { s with regs := s.regs.set i v }

/-- `pcWritten` after `WriteReg(i, v)` (R98). -/
def pcWrittenBy (i : Reg) : Bool := i = 15

/-- pc (R24): between cycles the next fetch address, within one the address `a` of its instruction (R21). -/
def State.pc (s : State) : Word := s.readReg 15

/-- PC sequencing (R99), `a` being the address of the instruction. -/
def State.sequencePc (s : State) (a : Word) (pcWritten : Bool) : State :=
  if pcWritten then s else s.writeReg 15 (a + 1)

/-- pc <- a + 1 and nothing else: what a masked-off instruction does (R95). -/
def State.advancePc (s : State) : State := s.sequencePc s.pc false

/-! ## Memory (20_memory.md R40 to R45) -/

/-- What a word never written reads as: memory is zero at construction (10_state.md R29). -/
def Memory.blank : Word := 0

/-- The word at address `a`. -/
def Memory.read : Memory → Nat → Word
  | [], _ => Memory.blank
  | (b, v) :: m, a => if b = a then v else Memory.read m a

/-- Drop the cell at `a`. -/
def Memory.erase (m : Memory) (a : Nat) : Memory := m.filter (fun c => c.1 ≠ a)

/-- Add a cell before the first higher address. -/
def Memory.insertCell : Memory → Nat → Word → Memory
  | [], a, v => [(a, v)]
  | (b, u) :: m, a, v => if a < b then (a, v) :: (b, u) :: m else (b, u) :: Memory.insertCell m a v

/-- mem[a] <- v, keeping the canonical form: the blank value is not listed. -/
def Memory.write (m : Memory) (a : Nat) (v : Word) : Memory :=
  if v = Memory.blank then m.erase a else (m.erase a).insertCell a v

/-- The canonical form: addresses strictly rise and no cell holds what an unlisted address reads as. -/
abbrev Memory.wf (m : Memory) : Prop := m.Pairwise (fun c d => c.1 < d.1) ∧ ∀ c ∈ m, c.2 ≠ Memory.blank

/-- Every listed address lies below `n`. -/
abbrev Memory.below (m : Memory) (n : Nat) : Prop := ∀ c ∈ m, c.1 < n

/-- An address of the memory: unsigned(a) < MEM_WORDS (R41). -/
abbrev State.inBounds (s : State) (a : Word) : Prop := a.toNat < s.cfg.memWords

/-- `MemRead(a, kind, pc)` (R41). -/
def State.memRead (s : State) (a : Word) (kind : AccessKind) (pc : Word) : Except FaultRecord Word :=
  if s.inBounds a then .ok (s.mem.read a.toNat) else .error (.memoryBounds a kind pc)

/-- `MemWrite(a, v, pc)` (R42): the kind is always store. -/
def State.memWrite (s : State) (a v pc : Word) : Except FaultRecord State :=
  if s.inBounds a then .ok (s.setMem (s.mem.write a.toNat v)) else .error (.memoryBounds a .store pc)

/-! ## The FSM: start and faults -/

/-- Ready → Running (40_cycle.md R90, R91). In every other state start changes nothing. -/
def State.start (s : State) : State := if s.fsm = .ready then s.setFsm .running else s

/-- Taking a fault (60_exceptions.md R155, 40_cycle.md R101 `Fault`): the FSM becomes Faulted, the record is kept, and
nothing else changes. There is no handler address and no saved register, since a fault transfers no control (R157), and
there is no return: only a new construction leaves Faulted (R158, R185). -/
def State.takeFault (s : State) (e : FaultRecord) : State := { s with fsm := .faulted, fault := some e }

/-- The outcome type of every meaning. -/
abbrev Result := Host.Outcome State Fault Refusal

end Sys2Proof.Machine
end

