-- ==== Sys2Proof/Machine/Flags.lean ====
section
/-! DEFINITION. Condition evaluation and flag update (40_cycle.md R94, R97). -/

namespace Sys2Proof.Machine

/-- F.M. -/
def CondCode.isM (f : CondCode) : Bool := f = .M

/-- F.Z. -/
def CondCode.isZ (f : CondCode) : Bool := f = .Z

/-- F.P. -/
def CondCode.isP (f : CondCode) : Bool := f = .P

/-- F.V. -/
def CondCode.isV (f : CondCode) : Bool := f = .V

/-- `CondTrue` (R94). -/
def condTrue (m : Mask) (f : CondCode) : Bool :=
  (m.mM && f.isM) || (m.mZ && f.isZ) || (m.mP && f.isP) || (m.mV && f.isV)

/-- `SetFlags` (R97): M if negative, Z if zero, P if positive; V is cleared by every call. -/
def signFlag (r : Word) : CondCode := if r.toInt < 0 then .M else if r = 0 then .Z else .P

end Sys2Proof.Machine
end

