-- ==== Sys2Proof/Machine/Operands.lean ====
section
/-! DEFINITION. Operand formation and predication, which every instruction shares (40_cycle.md R94 to R96). -/

namespace Sys2Proof.Machine

/-- op1 = x[rs1] (R96). -/
def operand1 (o : Operands) (s : State) : Word := s.readReg o.rs1

/-- op2 = x[rs2] + sext_32(disp) (R96); sext_32 of the field is wrap(disp) (30_encoding.md R64). -/
def operand2 (o : Operands) (s : State) : Word := s.readReg o.rs2 + wrap o.disp

/-- EA = op1 + op2 (42_load_store.md R131). -/
def effectiveAddress (o : Operands) (s : State) : Word := operand1 o s + operand2 o s

/-- The mask is checked first: a masked-off instruction advances the pc and does nothing else (R95). -/
def predicated (o : Operands) (s : State) (effect : Result) : Result :=
  if condTrue o.mask s.flags then effect else .next s.advancePc

/-- The end of an executed instruction that writes register `rt`: `WriteReg(rt, v)`, F <- f, then PC sequencing from the
address of the instruction (R97 to R99). -/
def State.retire (s : State) (rt : Reg) (v : Word) (f : CondCode) : State :=
  ((s.writeReg rt v).setFlags f).sequencePc s.pc (pcWrittenBy rt)

/-- The end of an executed instruction that writes no register: F <- f, then the pc advances (R99). -/
def State.retireNoWrite (s : State) (f : CondCode) : State := (s.setFlags f).sequencePc s.pc false

end Sys2Proof.Machine
end

