-- ==== Sys2Proof/Machine/Alu.lean ====
section
/-! DEFINITION. The ALU and its four instructions (41_alu.md). -/

namespace Sys2Proof.Machine

/-- The operations of the ALU block (R125). -/
inductive AluOp where
  | add
  | sub
  | mul
  | div
deriving DecidableEq, Repr

/-- The ALU block's output (R125): the result `r`, or `divByZero`, for which there is no result. -/
inductive AluResult where
  | value (r : Word)
  | divByZero
deriving DecidableEq, Repr

/-- r <- op1 + op2 (R120). -/
def aluAdd (op1 op2 : Word) : AluResult := .value (op1 + op2)

/-- r <- op1 - op2 (R121). -/
def aluSub (op1 op2 : Word) : AluResult := .value (op1 - op2)

/-- r <- wrap(signed(op1) * signed(op2)) (R122). -/
def aluMul (op1 op2 : Word) : AluResult := .value (wrap (op1.toInt * op2.toInt))

/-- r <- wrap(trunc_div(signed(op1), signed(op2))), unless the divisor is zero (R123). -/
def aluDiv (op1 op2 : Word) : AluResult :=
  if op2 = 0 then .divByZero else .value (wrap (Int.tdiv op1.toInt op2.toInt))

/-- The ALU block (R125). -/
def alu : AluOp → Word → Word → AluResult
  | .add, a, b => aluAdd a b
  | .sub, a, b => aluSub a b
  | .mul, a, b => aluMul a b
  | .div, a, b => aluDiv a b

/-- What the register file and the flags take from the ALU (R120 to R123, R125): the result and its sign, or, on a zero
divisor, V alone and no register. -/
def State.retireAlu (s : State) (rt : Reg) : AluResult → State
  | .value r => s.retire rt r (signFlag r)
  | .divByZero => s.retireNoWrite .V

/-- An ALU instruction. -/
def aluInstr (op : AluOp) (o : Operands) (s : State) : Result :=
  predicated o s (.next (s.retireAlu o.rt (alu op (operand1 o s) (operand2 o s))))

/-- ADD (R120). -/
def execAdd (o : Operands) (s : State) : Result := aluInstr .add o s

/-- SUB (R121). -/
def execSub (o : Operands) (s : State) : Result := aluInstr .sub o s

/-- MUL (R122). -/
def execMul (o : Operands) (s : State) : Result := aluInstr .mul o s

/-- DIV (R123). -/
def execDiv (o : Operands) (s : State) : Result := aluInstr .div o s

end Sys2Proof.Machine
end

