-- ==== Sys2Proof/Machine/Control.lean ====
section
/-! DEFINITION. HALT (43_control.md R140). Every other control transfer is a write to register 15 (R141). -/

namespace Sys2Proof.Machine

/-- HALT: state <- Halted, F unchanged, no register written, and the pc advances (R140). -/
def execHalt (o : Operands) (s : State) : Result := predicated o s (.next ((s.setFsm .halted).retireNoWrite s.flags))

end Sys2Proof.Machine
end

