-- ==== Sys2Proof/Machine/LoadStore.lean ====
section
/-! DEFINITION. The load-store unit and its two instructions (42_load_store.md). -/

namespace Sys2Proof.Machine

/-- What the unit returns for a LOAD (R135): the word and the state after the access, a bounds violation, or blocked. -/
inductive LoadResult where
  | loaded (v : Word) (s : State)
  | bounds (e : FaultRecord)
  | blocked
deriving DecidableEq, Repr

/-- `InRead` (20_memory.md R48): the head of the input stream, or blocked. -/
def inRead (s : State) : LoadResult :=
  match s.inq with
  | [] => .blocked
  | v :: q => .loaded v (s.setInq q)

/-- `MemRead` as the unit's result. -/
def cellRead (s : State) (a : Word) (pc : Word) : LoadResult :=
  match s.memRead a .load pc with
  | .ok v => .loaded v s
  | .error e => .bounds e

/-- A LOAD access (R132): bounds first, then the input port, else the memory cell. -/
def loadUnit (s : State) (ea pc : Word) : LoadResult :=
  if s.inBounds ea ∧ ea = s.cfg.ioInAddr then inRead s else cellRead s ea pc

/-- A STORE access (R133): bounds first, then the output port, else the memory cell. -/
def storeUnit (s : State) (ea v pc : Word) : Except FaultRecord State :=
  if s.inBounds ea ∧ ea = s.cfg.ioOutAddr then .ok (s.emit v) else s.memWrite ea v pc

/-- LOAD's operation on its effective address. F is set from the EA (R134), only when the access neither faults nor
blocks; then the pc is sequenced from the address of the LOAD. -/
def loadEffect (rt : Reg) (ea : Word) (s : State) : Result :=
  match loadUnit s ea s.pc with
  | .loaded v t => .next (t.retire rt v (signFlag ea))
  | .bounds e => .next (s.takeFault e)
  | .blocked => .fault .blockedOnInput

/-- STORE's operation: the data is x[rt] (R133, 10_state.md R21), F is set from the EA (R134). -/
def storeEffect (rt : Reg) (ea : Word) (s : State) : Result :=
  match storeUnit s ea (s.readReg rt) s.pc with
  | .ok t => .next (t.retireNoWrite (signFlag ea))
  | .error e => .next (s.takeFault e)

/-- LOAD (R132). -/
def execLoad (o : Operands) (s : State) : Result := predicated o s (loadEffect o.rt (effectiveAddress o s) s)

/-- STORE (R133). -/
def execStore (o : Operands) (s : State) : Result := predicated o s (storeEffect o.rt (effectiveAddress o s) s)

end Sys2Proof.Machine
end

