-- ==== Sys2Proof/Machine/Dispatch.lean ====
section
/-! DEFINITION. One arm for each instruction (40_cycle.md R101): the case analysis has no default arm. -/

namespace Sys2Proof.Machine

def exec (i : Instr) (s : State) : Host.Outcome State Fault Refusal :=
  match i with
  | .halt o => Sys2Proof.Machine.execHalt o s
  | .load o => Sys2Proof.Machine.execLoad o s
  | .store o => Sys2Proof.Machine.execStore o s
  | .add o => Sys2Proof.Machine.execAdd o s
  | .sub o => Sys2Proof.Machine.execSub o s
  | .mul o => Sys2Proof.Machine.execMul o s
  | .div o => Sys2Proof.Machine.execDiv o s

end Sys2Proof.Machine
end

