-- ==== Sys2Proof/Machine/Cycle.lean ====
section
/-! DEFINITION. One fetch-decode-execute cycle (40_cycle.md R92, R93, R101). -/

namespace Sys2Proof.Machine

/-- Step 1, fetch (R92): plain memory, even at a port address (20_memory.md R50). -/
def State.fetch (s : State) : Except FaultRecord Word := s.memRead s.pc .fetch s.pc

/-- Decode the fetched word and run it. An unknown opcode faults here, before the mask is looked at (R93). -/
def runWord (w : Word) (s : State) : Result :=
  match decode w with
  | .ok i => exec i s
  | .error (.unknownOpcode op) => .next (s.takeFault (.unknownOpcode op s.pc))

/-- One cycle (R101). It looks at the FSM nowhere: it is started only in Running (R103). -/
def cycle (s : State) : Result :=
  match s.fetch with
  | .ok w => runWord w s
  | .error e => .next (s.takeFault e)

/-- `s` with the word `w` stored at the pc, if the pc is an address of the memory (log 7). -/
def State.storeAtPc (s : State) (w : Word) : State := if s.inBounds s.pc then s.setMem (s.mem.write s.pc.toNat w) else s

end Sys2Proof.Machine
end

