-- ==== Sys2Proof/Machine/Step.lean ====
section
/-! DEFINITION. The host's `step()` (70_reset_and_hazards.md R182) as the step of the machine. -/

namespace Sys2Proof.Machine

/-- From Ready, one step starts the FSM and runs the first cycle; in Running it runs one cycle; Halted and Faulted are
returned unchanged (R182, 40_cycle.md R103). -/
def step (s : State) : Host.Outcome State Fault Refusal :=
  match s.fsm with
  | .ready => cycle s.start
  | .running => cycle s
  | .halted => .next s
  | .faulted => .next s

/-- `s` with the instruction word `w` (bits above `nbits` zero) stored where `step` fetches next. -/
def State.withFetchWord (s : State) (nbits w : Nat) : State := s.storeAtPc (BitVec.ofNat 32 (w % 2 ^ nbits))

end Sys2Proof.Machine
end

