-- ==== Sys2Proof/Machine/Reference.lean ====
section
/-! DEFINITION. The pseudocode of one cycle (40_cycle.md R101) written out as one function over the raw word, with the
cycle-local `pcWritten`. A second, separate design of the same cycle, for the claim that the model's cycle refines it:
the model's step never uses it. It shares only the read and write of a register or a memory word and `takeFault`. -/

namespace Sys2Proof.Machine

/-- `WriteReg(i, v)` with the new `pcWritten` beside the state (R98). -/
def refWriteReg (s : State) (pcWritten : Bool) (i : Reg) (v : Word) : State × Bool :=
  if i = 0 then (s, pcWritten) else ({ s with regs := s.regs.set i v }, if i = 15 then true else pcWritten)

/-- `SetFlags` by the sign bit (R97). -/
def refSetFlags (r : Word) : CondCode := if r.msb then .M else if r = 0 then .Z else .P

/-- The four ALU operations end alike: WriteReg, then F <- SetFlags(r) (R120 to R123). -/
def refFinish (s : State) (rt : Reg) (v : Word) (f : CondCode) : State × Bool :=
  let (t, pcWritten) := refWriteReg s false rt v
  ({ t with flags := f }, pcWritten)

/-- Step 5 (R99). -/
def refSequence (a : Word) (r : State × Bool) : Result :=
  .next (if r.2 then r.1 else { r.1 with regs := r.1.regs.set 15 (a + 1) })

/-- The index held in four bits of the word. -/
def refReg (w : Word) (lo : Nat) : Reg := (w.extractLsb' lo 4).toFin

/-- `Cycle(S)` (R101). -/
def refCycle (s : State) : Result :=
  let a := s.regs[15]
  if s.cfg.memWords ≤ a.toNat then .next (s.takeFault (.memoryBounds a .fetch a))
  else
    let w := s.mem.read a.toNat
    let op := w.extractLsb' 26 5
    if 6 < op.toNat then .next (s.takeFault (.unknownOpcode op a))
    else if !((w.getLsbD 22 && s.flags = .M) || (w.getLsbD 23 && s.flags = .Z) || (w.getLsbD 24 && s.flags = .P) ||
        (w.getLsbD 25 && s.flags = .V)) then .next { s with regs := s.regs.set 15 (a + 1) }
    else
      let rt := refReg w 18
      let op1 := s.readReg (refReg w 14)
      let op2 := s.readReg (refReg w 10) + (w.extractLsb' 0 10).signExtend 32
      let ea := op1 + op2
      match op.toNat with
      | 0 => refSequence a ({ s with fsm := .halted }, false)
      | 1 =>
        if s.cfg.memWords ≤ ea.toNat then .next (s.takeFault (.memoryBounds ea .load a))
        else if ea = s.cfg.ioInAddr then
          match s.inq with
          | [] => .fault .blockedOnInput
          | v :: q => refSequence a (refFinish { s with inq := q } rt v (refSetFlags ea))
        else refSequence a (refFinish s rt (s.mem.read ea.toNat) (refSetFlags ea))
      | 2 =>
        if s.cfg.memWords ≤ ea.toNat then .next (s.takeFault (.memoryBounds ea .store a))
        else if ea = s.cfg.ioOutAddr then
          refSequence a ({ s with outq := s.outq ++ [s.readReg rt], flags := refSetFlags ea }, false)
        else
          refSequence a ({ s with mem := s.mem.write ea.toNat (s.readReg rt), flags := refSetFlags ea }, false)
      | 3 => refSequence a (refFinish s rt (op1 + op2) (refSetFlags (op1 + op2)))
      | 4 => refSequence a (refFinish s rt (op1 - op2) (refSetFlags (op1 - op2)))
      | 5 => refSequence a (refFinish s rt (op1 * op2) (refSetFlags (op1 * op2)))
      | _ =>
        if op2 = 0 then refSequence a ({ s with flags := .V }, false)
        else refSequence a (refFinish s rt (op1.sdiv op2) (refSetFlags (op1.sdiv op2)))

end Sys2Proof.Machine
end

