-- ==== Sys2Proof/Machine/HostOps.lean ====
section
/-! DEFINITION. The host interface (70_reset_and_hazards.md R181 to R186): loading a program, run control and input. The
host never writes registers or memory while the CORE is Running (R186), so it has no other move. -/

namespace Sys2Proof.Machine

/-! ## loadProgram (R181) -/

/-- Why `loadProgram` changes nothing. A host error, no fault record of the CORE. -/
inductive LoadError where
  /-- The FSM is not Ready. -/
  | notReady
  /-- MemoryBoundsError, with the first out-of-range address. -/
  | memoryBounds (addr : Nat)
deriving DecidableEq, Repr

/-- mem[a + i] <- ws[i] for every i, in order. -/
def Memory.load (m : Memory) (a : Nat) : List Word → Memory
  | [] => m
  | w :: ws => (m.write a w).load (a + 1) ws

/-- `loadProgram(ws, a)`: whole or not at all, only in Ready, and nothing but mem changes. -/
def State.loadProgram (s : State) (ws : List Word) (a : Nat) : Except LoadError State :=
  if s.fsm ≠ .ready then .error .notReady
  else if a + ws.length ≤ s.cfg.memWords then .ok (s.setMem (s.mem.load a ws))
  else .error (.memoryBounds (max a s.cfg.memWords))

/-! ## step and run (R182, R183) -/

/-- What the host sees of a call: it returns, or it is blocked on input in the state shown, Running. -/
inductive Call (α : Type) where
  | returned (x : α)
  | blocked (s : State)
deriving DecidableEq, Repr

/-- `step()` with its blocked case: a blocked first cycle leaves the FSM started (R182, R104; log 5). -/
def State.hostStep (s : State) : Call State :=
  match step s with
  | .next t => .returned t
  | .fault _ => .blocked s.start
  | .refused _ => .blocked s.start

/-- The loop of `run`: `budget` cycles are left and `n` were started. Every cycle that completes, halts or faults counts,
and a blocked one does not. -/
def runLoop : Nat → Nat → State → Call (State × Nat)
  | 0, n, s => .returned (s, n)
  | budget + 1, n, s =>
    if s.fsm = .running then
      match cycle s with
      | .next t => runLoop budget (n + 1) t
      | .fault _ => .blocked s
      | .refused _ => .blocked s
    else .returned (s, n)

/-- `run(maxCycles)` (R183). -/
def State.hostRun (s : State) (maxCycles : Nat) : Call (State × Nat) := runLoop maxCycles 0 s.start

/-! ## Input (R186) -/

/-- The input source supplies more values, after those it has supplied. -/
def State.supplyInput (s : State) (vs : List Word) : State := s.setInq (s.inq ++ vs)

end Sys2Proof.Machine
end

