-- ==== Sys2Proof/Safety.lean ====
section
/-! DEFINITION. What claims speak of: the invariant of the machine, when a run has ended or is safe, what the next cycle
does, and the frames of the instructions. -/

namespace Sys2Proof.Machine

/-! ## States -/

/-- The invariant: the parameters meet 00_scope.md R8, memory is in canonical form and inside its capacity, the store of
x[0] is 0 (10_state.md R21), and a fault record is held exactly when the FSM is Faulted (R28). -/
structure State.Inv (s : State) : Prop where
  cfg_wf : s.cfg.wf
  mem_wf : s.mem.wf
  mem_below : s.mem.below s.cfg.memWords
  x0_zero : s.regs[0] = 0
  fault_iff : s.fault.isSome ↔ s.fsm = .faulted

/-- A run has ended (70_reset_and_hazards.md R187). A run stopped by its budget or blocked on input has not. -/
abbrev State.Ended (s : State) : Prop := s.fsm = .halted ∨ s.fsm = .faulted

/-- A safe state: no fatal error was taken (60_exceptions.md R150). -/
abbrev State.Safe (s : State) : Prop := s.fsm ≠ .faulted

/-- The CORE can be stepped: Ready or Running. -/
abbrev State.Active (s : State) : Prop := s.fsm = .ready ∨ s.fsm = .running

/-! ## What the next cycle does -/

/-- The word at the pc exists and holds the instruction `i`. -/
abbrev State.Fetches (s : State) (i : Instr) : Prop := s.inBounds s.pc ∧ decode (s.mem.read s.pc.toNat) = .ok i

/-- The next cycle executes `i`: it is fetched and its mask is true. -/
abbrev State.Executes (s : State) (i : Instr) : Prop :=
  s.Active ∧ s.Fetches i ∧ condTrue i.operands.mask s.flags = true

/-- The fetched word names no operation (40_cycle.md R93). -/
abbrev State.FetchesUnknown (s : State) : Prop := s.inBounds s.pc ∧ 6 < (opField (s.mem.read s.pc.toNat)).toNat

/-- The next cycle has a data access out of bounds (42_load_store.md R132, R133). -/
def State.AccessesOutOfBounds (s : State) : Prop :=
  ∃ o, (s.Executes (.load o) ∨ s.Executes (.store o)) ∧ ¬ s.inBounds (effectiveAddress o s)

/-- The CORE is blocked: it executes a LOAD from the input port and no input is left (40_cycle.md R104). -/
def State.Blocked (s : State) : Prop :=
  ∃ o, s.Executes (.load o) ∧ s.inBounds (effectiveAddress o s) ∧ effectiveAddress o s = s.cfg.ioInAddr ∧ s.inq = []

/-- The next cycle executes a STORE into the memory word `a` (not to the output port). -/
def State.StoresTo (s : State) (a : Word) : Prop :=
  ∃ o, s.Executes (.store o) ∧ effectiveAddress o s = a ∧ s.inBounds a ∧ a ≠ s.cfg.ioOutAddr

/-- Zero or more steps, none of which stores into the memory word `a`. -/
inductive StepsSparing (a : Word) : State → State → Prop where
  | refl (s : State) : StepsSparing a s s
  | tail {s t u : State} : StepsSparing a s t → ¬ t.StoresTo a → step t = .next u → StepsSparing a s u

/-! ## Frames -/

/-- Every word of memory reads as before. -/
def SameMemory (s t : State) : Prop := ∀ a, t.mem.read a = s.mem.read a

/-- The streams are as before. -/
def SameStreams (s t : State) : Prop := t.inq = s.inq ∧ t.outq = s.outq

/-- The parameters, the FSM and the fault record are as before. -/
def SameControl (s t : State) : Prop := t.cfg = s.cfg ∧ t.fsm = s.fsm ∧ t.fault = s.fault

/-- `v` is written to register `rt` and to no other (register 0 discards it), and the pc is `v` if `rt` is 15, else one
more (R98, R99). -/
structure WritesReg (s t : State) (rt : Reg) (v : Word) : Prop where
  zero : t.readReg 0 = 0
  dest : rt ≠ 0 → t.readReg rt = v
  others : ∀ j : Reg, j ≠ rt → j ≠ 15 → t.readReg j = s.readReg j
  pc : t.readReg 15 = if rt = 15 then v else s.readReg 15 + 1

/-- No register is written, and the pc is one more. -/
structure WritesNoReg (s t : State) : Prop where
  others : ∀ j : Reg, j ≠ 15 → t.readReg j = s.readReg j
  pc : t.readReg 15 = s.readReg 15 + 1

/-! ## Jumps (43_control.md R141) -/

/-- The value an executed instruction with rt = 15 writes to the pc, if it writes one. -/
def jumpTarget (i : Instr) (s : State) : Option Word :=
  match i with
  | .halt _ => none
  | .load o =>
    if s.inBounds (effectiveAddress o s) then
      if effectiveAddress o s = s.cfg.ioInAddr then s.inq.head? else some (s.mem.read (effectiveAddress o s).toNat)
    else none
  | .store _ => none
  | .add o => some (s.readReg o.rs1 + (s.readReg o.rs2 + wrap o.disp))
  | .sub o => some (s.readReg o.rs1 - (s.readReg o.rs2 + wrap o.disp))
  | .mul o => some (s.readReg o.rs1 * (s.readReg o.rs2 + wrap o.disp))
  | .div o =>
    if s.readReg o.rs2 + wrap o.disp = 0 then none
    else some (wrap (Int.tdiv (s.readReg o.rs1).toInt (s.readReg o.rs2 + wrap o.disp).toInt))

/-- The instruction with another target register. -/
def setTarget (i : Instr) (r : Reg) : Instr :=
  match i with
  | .halt o => .halt { o with rt := r }
  | .load o => .load { o with rt := r }
  | .store o => .store { o with rt := r }
  | .add o => .add { o with rt := r }
  | .sub o => .sub { o with rt := r }
  | .mul o => .mul { o with rt := r }
  | .div o => .div { o with rt := r }

/-! ## Renaming registers (10_state.md R23) -/

/-- The operand fields with every register index renamed. -/
def renameOperands (p : Equiv.Perm Reg) (o : Operands) : Operands :=
  { o with rt := p o.rt, rs1 := p o.rs1, rs2 := p o.rs2 }

/-- The instruction with every register index renamed. -/
def renameInstr (p : Equiv.Perm Reg) : Instr → Instr
  | .halt o => .halt (renameOperands p o)
  | .load o => .load (renameOperands p o)
  | .store o => .store (renameOperands p o)
  | .add o => .add (renameOperands p o)
  | .sub o => .sub (renameOperands p o)
  | .mul o => .mul (renameOperands p o)
  | .div o => .div (renameOperands p o)

/-- The state with the value of register `i` held by register `p i`. -/
def renameState (p : Equiv.Perm Reg) (s : State) : State :=
  { s with regs := Vector.ofFn fun i : Fin 16 => s.regs[p.symm i] }

/-- Change the next state, if there is one. -/
def mapNext (f : State → State) : Result → Result
  | .next s => .next (f s)
  | .fault r => .fault r
  | .refused r => .refused r

end Sys2Proof.Machine
end

