-- ==== Sys2Proof/Certificates/Slice0/Obligations.lean ====
section
/-! DEFINITION. The statements for the provers. Where a clause rests on a decision of 92_eei_decisions.md the docstring
names it: that clause is the spec's own choice and not its source's. -/

open Sys2Proof Sys2Proof.Machine

/-! ## The codec and the decoder (30_encoding.md) -/

/-- Words written out from the spec decode to the instructions they stand for (30_encoding.md R61, R63 and R66; the
opcode numbers are decision D3 and the mask bits D5, log 11 and 12): ADD r1,r1,r2; LOAD r2,r0,r0[-1]; STORE r3,r0,r0[6];
HALT; ADD/P r15,r15,r0[-2]; and opcode 7 names no operation. -/
def Obligations.SpecWordsDecode : Prop :=
  decode 0x0FC44800 = .ok (.add ⟨⟨true, true, true, true⟩, 1, 1, 2, 0⟩) ∧
  decode 0x07C803FF = .ok (.load ⟨⟨true, true, true, true⟩, 2, 0, 0, -1⟩) ∧
  decode 0x0BCC0006 = .ok (.store ⟨⟨true, true, true, true⟩, 3, 0, 0, 6⟩) ∧
  decode 0x03C00000 = .ok (.halt ⟨⟨true, true, true, true⟩, 0, 0, 0, 0⟩) ∧
  decode 0x0D3FC3FE = .ok (.add ⟨⟨false, false, true, false⟩, 15, 15, 0, -2⟩) ∧
  decode 0x1C000000 = .error (.unknownOpcode 7)

/-- R60, bit by bit: a valid descriptor reads the field's own bits, unsigned or as two's complement of the field's width;
a field past bit 31 is a contract error. -/
def Obligations.ExtractReadsItsField : Prop :=
  ∀ (w : Word) (width offset : Nat),
    (1 ≤ width → offset + width ≤ 32 →
      ∃ (n : Nat) (v : Int), extractField w width offset false = .ok (n : Int) ∧ extractField w width offset true = .ok v ∧
        n < 2 ^ width ∧ (∀ i, i < width → n.testBit i = w.getLsbD (offset + i)) ∧
        (v = n ∨ v = (n : Int) - 2 ^ width) ∧ -(2 ^ (width - 1) : Int) ≤ v ∧ v < 2 ^ (width - 1)) ∧
    (32 < offset + width → ∀ signed, extractField w width offset signed = .error .contract)

/-- decode reads exactly the fields of its pseudocode, through the checked primitive of R60, for every word, with the
worked example (30_encoding.md R63). Which mask bit is which is decision D5 (log 12), and rs2 in bits 13:10 is decision D4
(log 25). -/
def Obligations.DecodeIsFieldExtraction : Prop :=
  (∀ w : Word,
    extractField w 5 26 false = .ok ((decodeFields w).op.toNat : Int) ∧
    (decodeFields w).operands.mask = ⟨w.getLsbD 22, w.getLsbD 23, w.getLsbD 24, w.getLsbD 25⟩ ∧
    extractField w 4 18 false = .ok ((decodeFields w).operands.rt.val : Int) ∧
    extractField w 4 14 false = .ok ((decodeFields w).operands.rs1.val : Int) ∧
    extractField w 4 10 false = .ok ((decodeFields w).operands.rs2.val : Int) ∧
    extractField w 10 0 true = .ok (decodeFields w).operands.disp) ∧
  decodeFields 0x0FC44800 = ⟨3, ⟨⟨true, true, true, true⟩, 1, 1, 2, 0⟩⟩

/-- R64: the displacement is the two's complement of bits 9:0, lies in [-512, 511], and enters operand 2 as the
sign-extended field, unscaled; with the rule's examples. -/
def Obligations.DisplacementIsSignExtended : Prop :=
  (∀ w : Word, -512 ≤ (operandFields w).disp ∧ (operandFields w).disp ≤ 511 ∧
    wrap (operandFields w).disp = (w.extractLsb' 0 10).signExtend 32 ∧
    ∀ s : State, operand2 (operandFields w) s
      = s.readReg (operandFields w).rs2 + (w.extractLsb' 0 10).signExtend 32) ∧
  (operandFields 0x1FF).disp = 511 ∧ (operandFields 0x200).disp = -512 ∧ (operandFields 0x3FF).disp = -1 ∧
  (operandFields 0x000).disp = 0

/-- Insertion puts the value in its field and leaves every other bit alone, and extraction then gives the value back
(30_encoding.md R70; the rejection of values out of range is decision D26, log 19). -/
def Obligations.InsertThenExtract : Prop :=
  ∀ (w : Word) (width offset : Nat) (v : Int) (signed : Bool), descriptorOk width offset → insertable width v signed →
    ∃ w', insertField w width offset v signed = .ok w' ∧ extractField w' width offset signed = .ok v ∧
      ∀ i, i < offset ∨ offset + width ≤ i → w'.getLsbD i = w.getLsbD i

/-- What the codec rejects and with which error (30_encoding.md R70 to R72; decision D26, log 19). -/
def Obligations.CodecRejects : Prop :=
  (∀ (w : Word) (width offset : Nat) (v : Int) (signed : Bool),
    (¬ descriptorOk width offset → extractField w width offset signed = .error .contract ∧
      insertField w width offset v signed = .error .contract) ∧
    (descriptorOk width offset → ¬ insertable width v signed →
      insertField w width offset v signed = .error .encodingRange)) ∧
  ∀ op mask rt rs1 rs2 disp : Int, ¬ encodable op mask rt rs1 rs2 disp →
    encodeFields op mask rt rs1 rs2 disp = .error .encodingRange

/-- encode's chain of insertions equals its closed form, for every tuple in range, opcodes 7 to 31 too (30_encoding.md
R72; the range checks are decision D26, log 19). -/
def Obligations.EncodeClosedForm : Prop :=
  ∀ op mask rt rs1 rs2 disp : Int, encodable op mask rt rs1 rs2 disp →
    encodeFields op mask rt rs1 rs2 disp = .ok (wrap (op * 2 ^ 26 + mask * 2 ^ 22 + rt * 2 ^ 18 + rs1 * 2 ^ 14
      + rs2 * 2 ^ 10 + disp % 1024))

/-- decode(encode(f)) = f for every field tuple in range, and encode leaves bit 31 zero (30_encoding.md R73, R68). -/
def Obligations.FieldTuplesRoundTrip : Prop :=
  ∀ op mask rt rs1 rs2 disp : Int, encodable op mask rt rs1 rs2 disp →
    ∃ w, encodeFields op mask rt rs1 rs2 disp = .ok w ∧ w.getLsbD 31 = false ∧
      ((decodeFields w).op.toNat : Int) = op ∧ ((decodeFields w).operands.mask.toNat : Int) = mask ∧
      ((decodeFields w).operands.rt.val : Int) = rt ∧ ((decodeFields w).operands.rs1.val : Int) = rs1 ∧
      ((decodeFields w).operands.rs2.val : Int) = rs2 ∧ (decodeFields w).operands.disp = disp

/-- Decoding the word of any well-formed instruction gives the instruction back. -/
def Obligations.DecodeEncodeInstr : Prop := ∀ i : Instr, i.wf → decode (encode i) = .ok i

/-- Encoding what a word decodes to gives the word without bit 31, which is no field (30_encoding.md R73): at the level
of fields for every word, and of instructions for every word that holds one. -/
def Obligations.EncodeDecodeWord : Prop :=
  ∀ w : Word,
    (let d := decodeFields w
     encodeFields d.op.toNat d.operands.mask.toNat d.operands.rt.val d.operands.rs1.val d.operands.rs2.val
       d.operands.disp = .ok (w &&& 0x7FFFFFFF)) ∧
    ∀ i, decode w = .ok i → i.wf ∧ encode i = w &&& 0x7FFFFFFF

/-- A word decodes to no instruction exactly when its opcode field is 7 to 31, and the opcode is named (30_encoding.md
R67; the numbers are decision D3, log 11). -/
def Obligations.UnknownOpcodesAreSevenUp : Prop :=
  ∀ w : Word,
    (6 < (w.extractLsb' 26 5).toNat → decode w = .error (.unknownOpcode (w.extractLsb' 26 5))) ∧
    ((w.extractLsb' 26 5).toNat ≤ 6 → ∃ i, decode w = .ok i ∧ i.opcode = (w.extractLsb' 26 5).toNat)

/-- Bit 31 changes nothing: a word and the same word with bit 31 set decode alike and, fetched in any state, run alike
(30_encoding.md R68, decision D6, log 20). -/
def Obligations.Bit31IsIgnored : Prop :=
  ∀ (w : Word) (s : State), decodeFields (w ||| 0x80000000) = decodeFields w ∧
    runWord (w ||| 0x80000000) s = runWord w s

/-- The decoder block's wires agree with decode: each select line is up exactly on the words of its own operation, and
exactly one is up exactly when the word is legal (30_encoding.md R74, decision D34; the opcode numbers are decision D3,
log 11). -/
def Obligations.DecoderBlockAgrees : Prop :=
  ∀ w : Word, let p := decoderOutputs w; let d := decodeFields w
    p.op = d.op ∧ Mask.mk p.mM p.mZ p.mP p.mV = d.operands.mask ∧ p.rt.toNat = d.operands.rt.val ∧
    p.rs1.toNat = d.operands.rs1.val ∧ p.rs2.toNat = d.operands.rs2.val ∧ p.disp32 = wrap d.operands.disp ∧
    (p.legal = true ↔ ∃ i, decode w = .ok i) ∧
    (p.isHALT = true ↔ ∃ o, decode w = .ok (.halt o)) ∧ (p.isLOAD = true ↔ ∃ o, decode w = .ok (.load o)) ∧
    (p.isSTORE = true ↔ ∃ o, decode w = .ok (.store o)) ∧ (p.isADD = true ↔ ∃ o, decode w = .ok (.add o)) ∧
    (p.isSUB = true ↔ ∃ o, decode w = .ok (.sub o)) ∧ (p.isMUL = true ↔ ∃ o, decode w = .ok (.mul o)) ∧
    (p.isDIV = true ↔ ∃ o, decode w = .ok (.div o)) ∧
    (p.isHALT.toNat + p.isLOAD.toNat + p.isSTORE.toNat + p.isADD.toNat + p.isSUB.toNat + p.isMUL.toNat
      + p.isDIV.toNat = p.legal.toNat)

/-! ## Predication (40_cycle.md) -/

/-- The mask executes an instruction exactly when its bit of the one flag set is 1; mask 1111 always does and mask 0000
never (40_cycle.md R94, whose consequences the spec marks as derived). -/
def Obligations.MaskSelectsTheSetFlag : Prop :=
  (∀ (m : Mask) (f : CondCode), condTrue m f = match f with | .M => m.mM | .Z => m.mZ | .P => m.mP | .V => m.mV) ∧
  (∀ f : CondCode, condTrue ⟨true, true, true, true⟩ f = true ∧ condTrue ⟨false, false, false, false⟩ f = false)

/-- Every instruction, masked off, advances the pc by one and changes nothing else, whatever its target register
(40_cycle.md R95, decision D25, conflict C8). -/
def Obligations.MaskedOffOnlyAdvancesPc : Prop :=
  ∀ (i : Instr) (s : State), condTrue i.operands.mask s.flags = false →
    ∃ t, exec i s = .next t ∧ WritesNoReg s t ∧ t.flags = s.flags ∧ SameMemory s t ∧ SameStreams s t ∧ SameControl s t

/-! ## ALU instructions (41_alu.md) -/

/-- ADD executes, on every operand and target: the sum wrapped, flags from its sign and never V, the frame (41_alu.md
R120; wrapping without V is decisions D8 and D9, log 14). -/
def Obligations.AddExecutes : Prop :=
  ∀ (o : Operands) (s : State), condTrue o.mask s.flags = true →
    let r := wrap ((s.readReg o.rs1).toNat + (s.readReg o.rs2 + wrap o.disp).toNat)
    ∃ t, exec (.add o) s = .next t ∧ WritesReg s t o.rt r ∧
      t.flags = (if r.toInt < 0 then .M else if r = 0 then .Z else .P) ∧
      SameMemory s t ∧ SameStreams s t ∧ SameControl s t

/-- SUB executes: op1 minus op2, wrapped (41_alu.md R121; decisions D8 and D9, log 14). -/
def Obligations.SubExecutes : Prop :=
  ∀ (o : Operands) (s : State), condTrue o.mask s.flags = true →
    let r := wrap ((s.readReg o.rs1).toNat - (s.readReg o.rs2 + wrap o.disp).toNat)
    ∃ t, exec (.sub o) s = .next t ∧ WritesReg s t o.rt r ∧
      t.flags = (if r.toInt < 0 then .M else if r = 0 then .Z else .P) ∧
      SameMemory s t ∧ SameStreams s t ∧ SameControl s t

/-- MUL executes: the low 32 bits of the product, the same whether the operands are read signed or unsigned (41_alu.md
R122; decisions D8 and D9, log 14). -/
def Obligations.MulExecutes : Prop :=
  ∀ (o : Operands) (s : State), condTrue o.mask s.flags = true →
    let a := s.readReg o.rs1
    let b := s.readReg o.rs2 + wrap o.disp
    let r := wrap (a.toInt * b.toInt)
    r = BitVec.ofNat 32 (a.toNat * b.toNat) ∧
    ∃ t, exec (.mul o) s = .next t ∧ WritesReg s t o.rt r ∧
      t.flags = (if r.toInt < 0 then .M else if r = 0 then .Z else .P) ∧
      SameMemory s t ∧ SameStreams s t ∧ SameControl s t

/-- DIV with a divisor other than zero executes: the signed quotient rounded toward zero, wrapped (41_alu.md R123;
decisions D8 and D10, log 14). -/
def Obligations.DivExecutes : Prop :=
  ∀ (o : Operands) (s : State), condTrue o.mask s.flags = true → s.readReg o.rs2 + wrap o.disp ≠ 0 →
    let r := wrap (Int.tdiv (s.readReg o.rs1).toInt (s.readReg o.rs2 + wrap o.disp).toInt)
    ∃ t, exec (.div o) s = .next t ∧ WritesReg s t o.rt r ∧
      t.flags = (if r.toInt < 0 then .M else if r = 0 then .Z else .P) ∧
      SameMemory s t ∧ SameStreams s t ∧ SameControl s t

/-- What DIV's quotient is, without naming a division: the remainder is smaller than the divisor and has the sign of the
dividend; the one exception, -2^31 / -1, gives 0x80000000 (41_alu.md R123, R124; the exception is decision D10). -/
def Obligations.DivRoundsTowardZero : Prop :=
  ∀ a b : Word, b ≠ 0 →
    ∃ r, alu .div a b = .value r ∧
      (a = 0x80000000 ∧ b = 0xFFFFFFFF → r = 0x80000000) ∧
      (¬ (a = 0x80000000 ∧ b = 0xFFFFFFFF) →
        let d := a.toInt - r.toInt * b.toInt
        (d.natAbs < b.toInt.natAbs ∧ (0 ≤ a.toInt → 0 ≤ d) ∧ (a.toInt ≤ 0 → d ≤ 0)))

/-- DIV by zero sets V, writes nothing, continues at the next pc, takes no fault and keeps no record; and no other event
sets V (41_alu.md R123, 60_exceptions.md R153). That V is then the only flag set is decision D7 (log 24), and that the pc
advances by one for target r15 too is decision D25 (log 25). -/
def Obligations.DivisionByZeroIsRecoverable : Prop :=
  (∀ (o : Operands) (s : State), condTrue o.mask s.flags = true → s.readReg o.rs2 + wrap o.disp = 0 →
    ∃ t, exec (.div o) s = .next t ∧ t.flags = .V ∧ WritesNoReg s t ∧ SameMemory s t ∧ SameStreams s t ∧
      SameControl s t) ∧
  (∀ s t : State, step s = .next t → s.flags ≠ .V → t.flags = .V →
    ∃ o, s.Executes (.div o) ∧ s.readReg o.rs2 + wrap o.disp = 0)

/-! ## Load-store (42_load_store.md) -/

/-- LOAD from a memory word executes: any target, no base register changed, F from the address (42_load_store.md R131,
R132, R134; the address and its bounds are decision D11, F from the address D12, LOAD to r0 D37; log 13 and 21). A LOAD
from the output port's address is one of these (20_memory.md R50, D17). -/
def Obligations.LoadFromMemory : Prop :=
  ∀ (o : Operands) (s : State), condTrue o.mask s.flags = true →
    let ea := s.readReg o.rs1 + (s.readReg o.rs2 + wrap o.disp)
    ea.toNat < s.cfg.memWords → ea ≠ s.cfg.ioInAddr →
    ∃ t, exec (.load o) s = .next t ∧ WritesReg s t o.rt (s.mem.read ea.toNat) ∧
      t.flags = (if ea.toInt < 0 then .M else if ea = 0 then .Z else .P) ∧
      SameMemory s t ∧ SameStreams s t ∧ SameControl s t

/-- LOAD from the input port takes the head of the input stream and reads no memory word, for r0 too (20_memory.md R48,
42_load_store.md R132; decisions D12, D17 and D37, log 13 and 17). -/
def Obligations.LoadFromInputPort : Prop :=
  ∀ (o : Operands) (s : State) (v : Word) (q : List Word), condTrue o.mask s.flags = true →
    let ea := s.readReg o.rs1 + (s.readReg o.rs2 + wrap o.disp)
    ea.toNat < s.cfg.memWords → ea = s.cfg.ioInAddr → s.inq = v :: q →
    ∃ t, exec (.load o) s = .next t ∧ WritesReg s t o.rt v ∧
      t.flags = (if ea.toInt < 0 then .M else if ea = 0 then .Z else .P) ∧
      SameMemory s t ∧ t.inq = q ∧ t.outq = s.outq ∧ SameControl s t

/-- STORE to a memory word executes: exactly that word is replaced, no register is written, rt = 0 stores 0 and rt = 15
the address of the STORE (42_load_store.md R131, R133, R134; decisions D11, D12 and D20, log 13, 16 and 21). A STORE to
the input port's address is one of these (20_memory.md R50, D17). -/
def Obligations.StoreToMemory : Prop :=
  ∀ (o : Operands) (s : State), condTrue o.mask s.flags = true →
    let ea := s.readReg o.rs1 + (s.readReg o.rs2 + wrap o.disp)
    ea.toNat < s.cfg.memWords → ea ≠ s.cfg.ioOutAddr →
    ∃ t, exec (.store o) s = .next t ∧ WritesNoReg s t ∧
      t.flags = (if ea.toInt < 0 then .M else if ea = 0 then .Z else .P) ∧
      (∀ a, t.mem.read a = if a = ea.toNat then s.readReg o.rt else s.mem.read a) ∧ SameStreams s t ∧ SameControl s t

/-- STORE to the output port appends the word to the output stream and writes no memory word (20_memory.md R49,
42_load_store.md R133; decisions D12 and D17, log 13 and 17). -/
def Obligations.StoreToOutputPort : Prop :=
  ∀ (o : Operands) (s : State), condTrue o.mask s.flags = true →
    let ea := s.readReg o.rs1 + (s.readReg o.rs2 + wrap o.disp)
    ea.toNat < s.cfg.memWords → ea = s.cfg.ioOutAddr →
    ∃ t, exec (.store o) s = .next t ∧ WritesNoReg s t ∧
      t.flags = (if ea.toInt < 0 then .M else if ea = 0 then .Z else .P) ∧
      SameMemory s t ∧ t.inq = s.inq ∧ t.outq = s.outq ++ [s.readReg o.rt] ∧ SameControl s t

/-- LOAD and STORE out of bounds take the memory fault and commit nothing else, even for r0 and for the ports' streams
(42_load_store.md R132, R133, 60_exceptions.md R155; decisions D11 and D21, log 18 and 21). -/
def Obligations.AccessOutOfBoundsTakesFault : Prop :=
  ∀ (o : Operands) (s : State), condTrue o.mask s.flags = true →
    let ea := s.readReg o.rs1 + (s.readReg o.rs2 + wrap o.disp)
    s.cfg.memWords ≤ ea.toNat →
    exec (.load o) s
      = .next { s with fsm := .faulted, fault := some (.memoryBounds ea .load (s.readReg 15)) } ∧
    exec (.store o) s
      = .next { s with fsm := .faulted, fault := some (.memoryBounds ea .store (s.readReg 15)) }

/-! ## HALT (43_control.md) -/

/-- HALT executes: the FSM halts, F and every register but the pc stay, and the pc advances (43_control.md R140; F and
the pc are decision D13, log 15). -/
def Obligations.HaltExecutes : Prop :=
  ∀ (o : Operands) (s : State), condTrue o.mask s.flags = true →
    ∃ t, exec (.halt o) s = .next t ∧ t.fsm = .halted ∧ WritesNoReg s t ∧ t.flags = s.flags ∧ SameMemory s t ∧
      SameStreams s t ∧ t.cfg = s.cfg ∧ t.fault = s.fault

/-- R143: an executed jump (43_control.md R141) completes with any target, unchecked, and writes no other register; a
target past the capacity faults at the next fetch, and the jump's register and flag writes are kept. -/
def Obligations.JumpTargetsFaultAtNextFetch : Prop :=
  ∀ (i : Instr) (s : State) (v : Word), s.Executes i → i.operands.rt = 15 → jumpTarget i s = some v →
    ∃ t, step s = .next t ∧ t.readReg 15 = v ∧ t.fsm = .running ∧ t.fault = s.fault ∧
      (∀ j : Reg, j ≠ 15 → t.readReg j = s.readReg j) ∧
      (t.cfg.memWords ≤ v.toNat →
        ∃ u, step t = .next u ∧ u.fsm = .faulted ∧ u.fault = some (.memoryBounds v .fetch v) ∧
          u.flags = t.flags ∧ ∀ j : Reg, u.readReg j = t.readReg j)

/-! ## The cycle and the FSM (40_cycle.md) -/

/-- A step runs the decoded instruction: when the word at the pc decodes to `i`, the step of a running CORE is `exec i`,
and of a Ready one `exec i` after start (40_cycle.md R101, 70_reset_and_hazards.md R182, decision D24). -/
def Obligations.StepRunsDecodedInstr : Prop :=
  ∀ (s : State) (i : Instr), s.inBounds s.pc → decode (s.mem.read s.pc.toNat) = .ok i →
    (s.fsm = .running → step s = exec i s) ∧
    (s.fsm = .ready → step s = exec i { s with fsm := .running })

/-- A step of a running CORE is the pseudocode of Cycle (40_cycle.md R101), with the operations of 41_alu.md,
42_load_store.md and 43_control.md it calls, written out separately over the raw word with its pcWritten. It rests on
every decision those rules rest on (92_eei_decisions.md; log 11 to 22). -/
def Obligations.StepRefinesCycle : Prop := ∀ s : State, s.fsm = .running → step s = refCycle s

/-- The transitions of the control FSM (40_cycle.md R90). That a step of a Ready state starts the FSM and runs a cycle, so
that it can end Halted or Faulted, is decision D24 (log 23), and that an unknown opcode faults whatever its mask is
decision D19 (log 22). -/
def Obligations.FsmTransitions : Prop :=
  (∀ s : State, s.fsm = .ready → s.start.fsm = .running) ∧
  ∀ s t : State, step s = .next t →
    (s.fsm = .halted → t.fsm = .halted) ∧ (s.fsm = .faulted → t.fsm = .faulted) ∧
    (s.Active →
      ((∃ o, s.Executes (.halt o)) → t.fsm = .halted) ∧
      (¬ s.inBounds s.pc ∨ s.FetchesUnknown ∨ s.AccessesOutOfBounds → t.fsm = .faulted) ∧
      ((¬ ∃ o, s.Executes (.halt o)) → ¬ (¬ s.inBounds s.pc ∨ s.FetchesUnknown ∨ s.AccessesOutOfBounds) →
        t.fsm = .running))

/-- R91: start takes Ready to Running and changes no register, flag or memory word; nor does it change anything else, since
the pseudocode of step() and run() (70_reset_and_hazards.md R182, R183) sets `state` alone there. -/
def Obligations.StartChangesOnlyTheFsm : Prop :=
  ∀ s : State, s.fsm = .ready →
    s.start = { s with fsm := .running } ∧ s.start.fsm = .running ∧ (∀ j : Reg, s.start.readReg j = s.readReg j) ∧
      s.start.flags = s.flags ∧ ∀ a, s.start.mem.read a = s.mem.read a

/-- R92: the fetch reads the word at the pc, and a pc out of bounds faults. -/
def Obligations.FetchReadsAtThePc : Prop :=
  ∀ s : State,
    ((s.readReg 15).toNat < s.cfg.memWords → s.fetch = .ok (s.mem.read (s.readReg 15).toNat)) ∧
    (s.cfg.memWords ≤ (s.readReg 15).toNat → s.fsm = .running →
      ∃ t, step s = .next t ∧ t.fsm = .faulted ∧
        t.fault = some (.memoryBounds (s.readReg 15) .fetch (s.readReg 15)))

/-- An unknown opcode faults with its opcode and address, whatever its mask and bit 31, and changes nothing else
(40_cycle.md R93, 60_exceptions.md R152, R155; decisions D19 and D21, log 18 and 22). -/
def Obligations.UnknownOpcodeFaults : Prop :=
  ∀ s : State, s.Active → s.FetchesUnknown →
    let op := (s.mem.read (s.readReg 15).toNat).extractLsb' 26 5
    step s = .next { s with fsm := .faulted, fault := some (.unknownOpcode op (s.readReg 15)) }

/-- R103: in Halted and Faulted a step returns the state unchanged, and run returns at once having counted nothing. -/
def Obligations.TerminalStatesStay : Prop :=
  ∀ s : State, s.fsm = .halted ∨ s.fsm = .faulted →
    step s = .next s ∧ ∀ m, s.hostRun m = .returned (s, 0)

/-- The CORE has no step exactly when it is blocked on input, which is no value and no halt, and it goes on once input
arrives (40_cycle.md R104, 60_exceptions.md R166; decision D18, log 5). -/
def Obligations.StopsOnlyWhenBlocked : Prop :=
  ∀ s : State,
    (s.Blocked → step s = .fault .blockedOnInput ∧ ∀ v vs, ∃ t, step (s.supplyInput (v :: vs)) = .next t) ∧
    (¬ s.Blocked → ∃ t, step s = .next t)

/-! ## Faults (60_exceptions.md) -/

/-- R151: a memory fault on a fetch, a LOAD or a STORE leaves the FSM Faulted, for good, with the offending address, the
kind and the pc in the record. -/
def Obligations.MemoryFaultRecords : Prop :=
  ∀ s : State, s.Active →
    (¬ s.inBounds s.pc →
      ∃ t, step s = .next t ∧ t.fsm = .faulted ∧ t.fault = some (.memoryBounds s.pc .fetch s.pc) ∧ step t = .next t) ∧
    (∀ o, s.Executes (.load o) → ¬ s.inBounds (effectiveAddress o s) →
      ∃ t, step s = .next t ∧ t.fsm = .faulted ∧
        t.fault = some (.memoryBounds (effectiveAddress o s) .load s.pc) ∧ step t = .next t) ∧
    (∀ o, s.Executes (.store o) → ¬ s.inBounds (effectiveAddress o s) →
      ∃ t, step s = .next t ∧ t.fsm = .faulted ∧
        t.fault = some (.memoryBounds (effectiveAddress o s) .store s.pc) ∧ step t = .next t)

/-- Faults are precise: a step into Faulted changes the FSM and the record and nothing else, the pc included
(60_exceptions.md R155, decision D21, log 18). -/
def Obligations.FaultsArePrecise : Prop :=
  ∀ s t : State, s.Active → step s = .next t → t.fsm = .faulted →
    ∃ e, t = { s with fsm := .faulted, fault := some e }

/-! ## Registers (10_state.md) -/

/-- R98: WriteReg discards a write to register 0, writes exactly the register named otherwise, and reports a write to
register 15. The discard stops nothing else: with target r0 an instruction does what it does with any other target to F,
memory, the streams, the FSM and the fault record (so a LOAD still faults, blocks and takes input), and writes no
register. STORE, which reads its rt, is the one instruction left out, since it calls no WriteReg. -/
def Obligations.WriteRegPath : Prop :=
  (∀ (s : State) (v : Word), s.writeReg 0 v = s) ∧
  (∀ (s : State) (i : Reg) (v : Word), i ≠ 0 →
    (s.writeReg i v).readReg i = v ∧ (∀ j : Reg, j ≠ i → (s.writeReg i v).readReg j = s.readReg j) ∧
      s.writeReg i v = { s with regs := (s.writeReg i v).regs }) ∧
  (∀ i : Reg, pcWrittenBy i = true ↔ i = 15) ∧
  (∀ (i : Instr) (s : State) (r : Reg), (∀ o, i ≠ .store o) →
    (∀ f, exec (setTarget i r) s = .fault f → exec (setTarget i 0) s = .fault f) ∧
    (∀ t, exec (setTarget i r) s = .next t →
      ∃ u, exec (setTarget i 0) s = .next u ∧ u.flags = t.flags ∧ u.mem = t.mem ∧ u.inq = t.inq ∧ u.outq = t.outq ∧
        u.fsm = t.fsm ∧ u.fault = t.fault ∧ ∀ j : Reg, j ≠ 15 → u.readReg j = s.readReg j))

/-- R23: registers 1 to 14 are identical in function (renaming them by any permutation renames the outcome), and no
instruction reads or writes one its fields do not name. -/
def Obligations.RegistersAreInterchangeable : Prop :=
  (∀ (p : Equiv.Perm Reg) (i : Instr) (s : State), p 0 = 0 → p 15 = 15 →
    exec (renameInstr p i) (renameState p s) = mapNext (renameState p) (exec i s)) ∧
  (∀ (i : Instr) (s : State) (k : Reg) (v : Word), k ≠ 15 → k ≠ i.operands.rt → k ≠ i.operands.rs1 →
    k ≠ i.operands.rs2 → exec i (s.writeReg k v) = mapNext (fun t => t.writeReg k v) (exec i s))

/-- What x[0] stores is never observed: changing it changes that store in the next state and nothing else (10_state.md
R21, R34; 93_implementation_defined.md I5; log 9). -/
def Obligations.StoreOfX0IsNeverObserved : Prop :=
  ∀ (s : State) (v : Word),
    step { s with regs := s.regs.set 0 v } = mapNext (fun t => { t with regs := t.regs.set 0 v }) (step s)

/-! ## Memory and I/O (20_memory.md) -/

/-- R42: MemWrite replaces the whole word and no other; out of bounds it raises the store error and there is no new
memory. -/
def Obligations.MemWriteChangesOneWord : Prop :=
  ∀ (s : State) (a v pc : Word),
    (a.toNat < s.cfg.memWords →
      ∃ t, s.memWrite a v pc = .ok t ∧ t.mem.read a.toNat = v ∧
        (∀ b, b ≠ a.toNat → t.mem.read b = s.mem.read b) ∧ t = { s with mem := t.mem }) ∧
    (s.cfg.memWords ≤ a.toNat → s.memWrite a v pc = .error (.memoryBounds a .store pc))

/-- R51: only an executed LOAD from the input port changes the input stream, taking one value; only an executed STORE to
the output port changes the output stream, adding one; every other write is a STORE's and changes one word. -/
def Obligations.SideEffects : Prop :=
  (∀ s t : State, step s = .next t →
    (t.inq = s.inq ∨ ∃ o v, s.Executes (.load o) ∧ effectiveAddress o s = s.cfg.ioInAddr ∧ s.inq = v :: t.inq) ∧
    (t.outq = s.outq ∨ ∃ o, s.Executes (.store o) ∧ effectiveAddress o s = s.cfg.ioOutAddr ∧
      t.outq = s.outq ++ [s.readReg o.rt]) ∧
    ((∀ a, t.mem.read a = s.mem.read a) ∨ ∃ o, s.Executes (.store o) ∧ effectiveAddress o s ≠ s.cfg.ioOutAddr ∧
      ∀ a, t.mem.read a = if a = (effectiveAddress o s).toNat then s.readReg o.rt else s.mem.read a)) ∧
  (∀ (s : State) (o : Operands) (v : Word) (q : List Word), s.Executes (.load o) → s.inBounds (effectiveAddress o s) →
    effectiveAddress o s = s.cfg.ioInAddr → s.inq = v :: q → ∃ t, step s = .next t ∧ t.inq = q) ∧
  (∀ (s : State) (o : Operands), s.Executes (.store o) → s.inBounds (effectiveAddress o s) →
    effectiveAddress o s = s.cfg.ioOutAddr → ∃ t, step s = .next t ∧ t.outq = s.outq ++ [s.readReg o.rt])

/-- R55: after a STORE into a memory word, every fetch of that address, from the very next cycle on and until another
STORE into it, sees the stored word. -/
def Obligations.StoreIsSeenByLaterFetches : Prop :=
  ∀ (s : State) (o : Operands), s.Executes (.store o) → s.inBounds (effectiveAddress o s) →
    effectiveAddress o s ≠ s.cfg.ioOutAddr →
    ∃ t, step s = .next t ∧
      ∀ u, StepsSparing (effectiveAddress o s) t u → u.pc = effectiveAddress o s → u.fetch = .ok (s.readReg o.rt)

/-! ## Reset and the host interface (70_reset_and_hazards.md) -/

/-- Construction puts every piece of state to its reset value, for all parameters and every input stream
(70_reset_and_hazards.md R180, 10_state.md R33; decisions D15, D17, D18, D21, D22, D23), and State.reset is one of these
(its parameters and empty input are the model's choice, log 2 and 3). -/
def Obligations.ConstructionValues : Prop :=
  (∀ (c : Config) (q : List Word), let s := State.construct c q
    s.fsm = .ready ∧ s.readReg 0 = 0 ∧ (∀ j : Reg, j ≠ 15 → s.readReg j = 0) ∧ s.readReg 15 = c.startAddr ∧
      s.flags = .Z ∧ s.fault = none ∧ (∀ a, s.mem.read a = 0) ∧ s.outq = [] ∧ s.inq = q ∧ s.cfg = c) ∧
  ∃ c q, State.reset = State.construct c q ∧ c.wf

/-- The invariant holds after construction with parameters that meet R8, and so after reset. -/
def Obligations.InvHoldsAtReset : Prop :=
  (∀ (c : Config) (q : List Word), c.wf → (State.construct c q).Inv) ∧ State.reset.Inv

/-- Every step keeps the invariant: memory stays canonical and inside its capacity, x[0] stays 0, and a fault record is
held exactly in Faulted. -/
def Obligations.InvIsKeptByEveryStep : Prop := ∀ s t : State, s.Inv → step s = .next t → t.Inv

/-- No step changes the parameters: the capacity is fixed at construction (20_memory.md R40). -/
def Obligations.ParametersNeverChange : Prop := ∀ s t : State, step s = .next t → t.cfg = s.cfg

/-- loadProgram: in Ready and in range it copies the words and changes nothing else, and keeps the invariant; out of
range it reports the first address out of range; in another state it is refused (70_reset_and_hazards.md R181, decision
D24, log 23). -/
def Obligations.LoadProgramCopiesWords : Prop :=
  ∀ (s : State) (ws : List Word) (a : Nat),
    (s.fsm ≠ .ready → s.loadProgram ws a = .error .notReady) ∧
    (s.fsm = .ready → s.cfg.memWords < a + ws.length →
      s.loadProgram ws a = .error (.memoryBounds (max a s.cfg.memWords))) ∧
    (s.fsm = .ready → a + ws.length ≤ s.cfg.memWords →
      ∃ t, s.loadProgram ws a = .ok t ∧ t = { s with mem := t.mem } ∧
        (∀ i w, ws[i]? = some w → t.mem.read (a + i) = w) ∧
        (∀ b, b < a ∨ a + ws.length ≤ b → t.mem.read b = s.mem.read b) ∧ (s.Inv → t.Inv))

/-- run is the iteration of step from start: its count is that of the cycles it started, each from a Running state, at most
its budget; it stops early only in a terminal state, and where it does not return a step is blocked (70_reset_and_hazards.md R183,
decision D24, log 23). -/
def Obligations.RunIteratesStep : Prop :=
  ∀ (s : State) (m : Nat),
    (∀ t n, s.hostRun m = .returned (t, n) →
      n ≤ m ∧ Host.Core.run Sys2Proof.core n s.start = .next t ∧
        (∀ k, k < n → ∃ u, Host.Core.run Sys2Proof.core k s.start = .next u ∧ u.fsm = .running) ∧ (n < m → t.Ended)) ∧
    (∀ u, s.hostRun m = .blocked u →
      u.Blocked ∧ ∃ n, n < m ∧ Host.Core.run Sys2Proof.core n s.start = .next u)

/-- The host's step(): it returns what the step gives, and when it does not return the CORE stays Running with the same
instruction next and nothing else changed (70_reset_and_hazards.md R182, 40_cycle.md R104; decisions D18 and D24, log
5). -/
def Obligations.HostStepReturnsOrBlocks : Prop :=
  ∀ s : State, (∀ t, s.hostStep = .returned t ↔ step s = .next t) ∧
    (∀ u, s.hostStep = .blocked u → s.Blocked ∧ u = { s with fsm := .running })

/-- A word placed with withFetchWord is what the next step fetches and runs (the model's own interface, log 7). -/
def Obligations.PlacedWordRuns : Prop :=
  ∀ (s : State) (nbits w : Nat), s.Active → s.inBounds s.pc →
    step (s.withFetchWord nbits w) = runWord (BitVec.ofNat 32 (w % 2 ^ nbits)) (s.withFetchWord nbits w).start
end

