-- ==== Sys2Proof/Laws/Decode.lean ====
section
/-! SUPPORT. The value of a packed word, on which facts about encoding rest (30_encoding.md R72). -/

namespace Sys2Proof

theorem Mask.toNat_lt (m : Mask) : m.toNat < 16 := by
  rcases m with ⟨a, b, c, d⟩
  cases a <;> cases b <;> cases c <;> cases d <;> decide

/-- A packed word's value is the sum of its fields: nothing wraps. -/
theorem packWord_toNat (op : Nat) (o : Operands) (h : op < 32) :
    (packWord op o).toNat = op * 2 ^ 26 + o.mask.toNat * 2 ^ 22 + o.rt.val * 2 ^ 18 + o.rs1.val * 2 ^ 14
      + o.rs2.val * 2 ^ 10 + (o.disp % 1024).toNat := by
  have hm := o.mask.toNat_lt
  have h1 := o.rt.isLt
  have h2 := o.rs1.isLt
  have h3 := o.rs2.isLt
  have hd : (o.disp % 1024).toNat < 1024 := by omega
  rw [packWord, BitVec.toNat_ofNat, Nat.mod_eq_of_lt (by omega)]

@[simp] theorem Instr.operands_halt (o : Operands) : (Instr.halt o).operands = o := rfl
@[simp] theorem Instr.operands_load (o : Operands) : (Instr.load o).operands = o := rfl
@[simp] theorem Instr.operands_store (o : Operands) : (Instr.store o).operands = o := rfl
@[simp] theorem Instr.operands_add (o : Operands) : (Instr.add o).operands = o := rfl
@[simp] theorem Instr.operands_sub (o : Operands) : (Instr.sub o).operands = o := rfl
@[simp] theorem Instr.operands_mul (o : Operands) : (Instr.mul o).operands = o := rfl
@[simp] theorem Instr.operands_div (o : Operands) : (Instr.div o).operands = o := rfl

theorem Instr.opcode_le (i : Instr) : i.opcode ≤ 6 := by cases i <;> simp [Instr.opcode]

end Sys2Proof
end

