-- ==== Sys2Proof/Laws/Memory.lean ====
section
/-! SUPPORT. The laws of memory: read after write, and that every operation keeps the canonical form. -/

namespace Sys2Proof.Machine

theorem Memory.erase_cons (c : Nat × Word) (m : Memory) (a : Nat) :
    Memory.erase (c :: m) a = if c.1 = a then Memory.erase m a else c :: Memory.erase m a := by
  unfold Memory.erase
  by_cases h : c.1 = a <;> simp [h]

theorem Memory.read_erase_same (m : Memory) (a : Nat) : (Memory.erase m a).read a = Memory.blank := by
  induction m with
  | nil => rfl
  | cons c m ih => by_cases h : c.1 = a <;> simp [Memory.erase_cons, h, Memory.read, ih]

theorem Memory.read_erase_ne (m : Memory) {a b : Nat} (h : b ≠ a) : (Memory.erase m a).read b = m.read b := by
  induction m with
  | nil => rfl
  | cons c m ih =>
    by_cases hc : c.1 = a
    · have : a ≠ b := Ne.symm h
      simp [Memory.erase_cons, hc, Memory.read, ih, this]
    · simp [Memory.erase_cons, hc, Memory.read, ih]

theorem Memory.read_insertCell (m : Memory) (a b : Nat) (v : Word) (h : ∀ c ∈ m, c.1 ≠ a) :
    (m.insertCell a v).read b = if b = a then v else m.read b := by
  induction m with
  | nil => simp [Memory.insertCell, Memory.read, eq_comm]
  | cons c m ih =>
    have hc : c.1 ≠ a := h c (by simp)
    have ih := ih (fun d hd => h d (by simp [hd]))
    unfold Memory.insertCell
    split
    · simp [Memory.read, eq_comm]
    · simp only [Memory.read, ih]
      split
      · rename_i hb
        rw [if_neg (hb ▸ hc)]
      · rfl

theorem Memory.erase_ne (m : Memory) (a : Nat) : ∀ c ∈ m.erase a, c.1 ≠ a := by
  intro c hc
  simpa using (List.mem_filter.mp hc).2

/-- Read after write (20_memory.md R42, R53), of any list of cells. -/
theorem Memory.read_write (m : Memory) (a b : Nat) (v : Word) :
    (m.write a v).read b = if b = a then v else m.read b := by
  unfold Memory.write
  split
  · rename_i hv
    split
    · rename_i hb; rw [hb, Memory.read_erase_same, hv]
    · rename_i hb; exact Memory.read_erase_ne m hb
  · rw [Memory.read_insertCell _ _ _ _ (Memory.erase_ne m a)]
    split
    · rfl
    · rename_i hb; exact Memory.read_erase_ne m hb

@[simp] theorem Memory.read_write_same (m : Memory) (a : Nat) (v : Word) : (m.write a v).read a = v := by
  simp [Memory.read_write]

theorem Memory.read_write_ne (m : Memory) {a b : Nat} (v : Word) (h : b ≠ a) : (m.write a v).read b = m.read b := by
  simp [Memory.read_write, h]

theorem Memory.mem_insertCell (m : Memory) (a : Nat) (v : Word) (c : Nat × Word) :
    c ∈ m.insertCell a v ↔ c = (a, v) ∨ c ∈ m := by
  induction m with
  | nil => simp [Memory.insertCell]
  | cons d m ih =>
    unfold Memory.insertCell
    split
    · simp
    · simp only [List.mem_cons, ih]; tauto

theorem Memory.wf_erase {m : Memory} (h : m.wf) (a : Nat) : (m.erase a).wf :=
  ⟨h.1.filter _, fun c hc => h.2 c (List.mem_filter.mp hc).1⟩

theorem Memory.wf_insertCell {m : Memory} (h : m.wf) {a : Nat} {v : Word} (hv : v ≠ Memory.blank)
    (ha : ∀ c ∈ m, c.1 ≠ a) : (m.insertCell a v).wf := by
  refine ⟨?_, fun c hc => ?_⟩
  · induction m with
    | nil => exact List.pairwise_singleton _ _
    | cons d m ih =>
      have hp := List.pairwise_cons.mp h.1
      have hd : d.1 ≠ a := ha d (by simp)
      unfold Memory.insertCell
      split
      · rename_i hlt
        refine List.pairwise_cons.mpr ⟨fun c hc => ?_, h.1⟩
        rcases List.mem_cons.mp hc with rfl | hc
        · exact hlt
        · exact Nat.lt_trans hlt (hp.1 c hc)
      · rename_i hlt
        have ih := ih ⟨hp.2, fun c hc => h.2 c (by simp [hc])⟩ (fun c hc => ha c (by simp [hc]))
        refine List.pairwise_cons.mpr ⟨fun c hc => ?_, ih⟩
        rcases (Memory.mem_insertCell m a v c).mp hc with rfl | hc
        · show d.1 < a
          omega
        · exact hp.1 c hc
  · rcases (Memory.mem_insertCell m a v c).mp hc with rfl | hc
    · exact hv
    · exact h.2 c hc

/-- A write keeps the canonical form. -/
theorem Memory.wf_write {m : Memory} (h : m.wf) (a : Nat) (v : Word) : (m.write a v).wf := by
  unfold Memory.write
  split
  · exact Memory.wf_erase h a
  · rename_i hv
    exact Memory.wf_insertCell (Memory.wf_erase h a) hv (Memory.erase_ne m a)

/-- A write below the capacity keeps every listed address below it. -/
theorem Memory.below_write {m : Memory} {n : Nat} (h : m.below n) {a : Nat} (ha : a < n) (v : Word) :
    (m.write a v).below n := by
  have he : (m.erase a).below n := fun c hc => h c (List.mem_filter.mp hc).1
  unfold Memory.write
  split
  · exact he
  · intro c hc
    rcases (Memory.mem_insertCell _ a v c).mp hc with rfl | hc
    · exact ha
    · exact he c hc

@[simp] theorem Memory.wf_nil : Memory.wf [] := ⟨List.Pairwise.nil, by simp⟩

@[simp] theorem Memory.below_nil (n : Nat) : Memory.below [] n := by simp [Memory.below]

@[simp] theorem Memory.read_nil (a : Nat) : Memory.read [] a = Memory.blank := rfl

end Sys2Proof.Machine
end

