-- ==== Sys2Proof/Laws/State.lean ====
section
/-! SUPPORT. One lemma for each field after each update of State: later proofs cite these and unfold no record update. -/

namespace Sys2Proof.Machine

variable (s : State)

/-! setFlags -/

@[simp] theorem State.setFlags_cfg (f : CondCode) : (s.setFlags f).cfg = s.cfg := rfl
@[simp] theorem State.setFlags_regs (f : CondCode) : (s.setFlags f).regs = s.regs := rfl
@[simp] theorem State.setFlags_flags (f : CondCode) : (s.setFlags f).flags = f := rfl
@[simp] theorem State.setFlags_fsm (f : CondCode) : (s.setFlags f).fsm = s.fsm := rfl
@[simp] theorem State.setFlags_fault (f : CondCode) : (s.setFlags f).fault = s.fault := rfl
@[simp] theorem State.setFlags_mem (f : CondCode) : (s.setFlags f).mem = s.mem := rfl
@[simp] theorem State.setFlags_inq (f : CondCode) : (s.setFlags f).inq = s.inq := rfl
@[simp] theorem State.setFlags_outq (f : CondCode) : (s.setFlags f).outq = s.outq := rfl

/-! setMem -/

@[simp] theorem State.setMem_cfg (m : Memory) : (s.setMem m).cfg = s.cfg := rfl
@[simp] theorem State.setMem_regs (m : Memory) : (s.setMem m).regs = s.regs := rfl
@[simp] theorem State.setMem_flags (m : Memory) : (s.setMem m).flags = s.flags := rfl
@[simp] theorem State.setMem_fsm (m : Memory) : (s.setMem m).fsm = s.fsm := rfl
@[simp] theorem State.setMem_fault (m : Memory) : (s.setMem m).fault = s.fault := rfl
@[simp] theorem State.setMem_mem (m : Memory) : (s.setMem m).mem = m := rfl
@[simp] theorem State.setMem_inq (m : Memory) : (s.setMem m).inq = s.inq := rfl
@[simp] theorem State.setMem_outq (m : Memory) : (s.setMem m).outq = s.outq := rfl

/-! setInq -/

@[simp] theorem State.setInq_cfg (q : List Word) : (s.setInq q).cfg = s.cfg := rfl
@[simp] theorem State.setInq_regs (q : List Word) : (s.setInq q).regs = s.regs := rfl
@[simp] theorem State.setInq_flags (q : List Word) : (s.setInq q).flags = s.flags := rfl
@[simp] theorem State.setInq_fsm (q : List Word) : (s.setInq q).fsm = s.fsm := rfl
@[simp] theorem State.setInq_fault (q : List Word) : (s.setInq q).fault = s.fault := rfl
@[simp] theorem State.setInq_mem (q : List Word) : (s.setInq q).mem = s.mem := rfl
@[simp] theorem State.setInq_inq (q : List Word) : (s.setInq q).inq = q := rfl
@[simp] theorem State.setInq_outq (q : List Word) : (s.setInq q).outq = s.outq := rfl

/-! emit -/

@[simp] theorem State.emit_cfg (v : Word) : (s.emit v).cfg = s.cfg := rfl
@[simp] theorem State.emit_regs (v : Word) : (s.emit v).regs = s.regs := rfl
@[simp] theorem State.emit_flags (v : Word) : (s.emit v).flags = s.flags := rfl
@[simp] theorem State.emit_fsm (v : Word) : (s.emit v).fsm = s.fsm := rfl
@[simp] theorem State.emit_fault (v : Word) : (s.emit v).fault = s.fault := rfl
@[simp] theorem State.emit_mem (v : Word) : (s.emit v).mem = s.mem := rfl
@[simp] theorem State.emit_inq (v : Word) : (s.emit v).inq = s.inq := rfl
@[simp] theorem State.emit_outq (v : Word) : (s.emit v).outq = s.outq ++ [v] := rfl

/-! setFsm -/

@[simp] theorem State.setFsm_cfg (f : Fsm) : (s.setFsm f).cfg = s.cfg := rfl
@[simp] theorem State.setFsm_regs (f : Fsm) : (s.setFsm f).regs = s.regs := rfl
@[simp] theorem State.setFsm_flags (f : Fsm) : (s.setFsm f).flags = s.flags := rfl
@[simp] theorem State.setFsm_fsm (f : Fsm) : (s.setFsm f).fsm = f := rfl
@[simp] theorem State.setFsm_fault (f : Fsm) : (s.setFsm f).fault = s.fault := rfl
@[simp] theorem State.setFsm_mem (f : Fsm) : (s.setFsm f).mem = s.mem := rfl
@[simp] theorem State.setFsm_inq (f : Fsm) : (s.setFsm f).inq = s.inq := rfl
@[simp] theorem State.setFsm_outq (f : Fsm) : (s.setFsm f).outq = s.outq := rfl

/-! takeFault -/

@[simp] theorem State.takeFault_cfg (e : FaultRecord) : (s.takeFault e).cfg = s.cfg := rfl
@[simp] theorem State.takeFault_regs (e : FaultRecord) : (s.takeFault e).regs = s.regs := rfl
@[simp] theorem State.takeFault_flags (e : FaultRecord) : (s.takeFault e).flags = s.flags := rfl
@[simp] theorem State.takeFault_fsm (e : FaultRecord) : (s.takeFault e).fsm = .faulted := rfl
@[simp] theorem State.takeFault_fault (e : FaultRecord) : (s.takeFault e).fault = some e := rfl
@[simp] theorem State.takeFault_mem (e : FaultRecord) : (s.takeFault e).mem = s.mem := rfl
@[simp] theorem State.takeFault_inq (e : FaultRecord) : (s.takeFault e).inq = s.inq := rfl
@[simp] theorem State.takeFault_outq (e : FaultRecord) : (s.takeFault e).outq = s.outq := rfl

/-! start changes the FSM only (40_cycle.md R91) -/

@[simp] theorem State.start_cfg : s.start.cfg = s.cfg := by unfold State.start; split <;> rfl
@[simp] theorem State.start_regs : s.start.regs = s.regs := by unfold State.start; split <;> rfl
@[simp] theorem State.start_flags : s.start.flags = s.flags := by unfold State.start; split <;> rfl
@[simp] theorem State.start_fsm : s.start.fsm = if s.fsm = .ready then .running else s.fsm := by
  unfold State.start; split <;> simp_all
@[simp] theorem State.start_fault : s.start.fault = s.fault := by unfold State.start; split <;> rfl
@[simp] theorem State.start_mem : s.start.mem = s.mem := by unfold State.start; split <;> rfl
@[simp] theorem State.start_inq : s.start.inq = s.inq := by unfold State.start; split <;> rfl
@[simp] theorem State.start_outq : s.start.outq = s.outq := by unfold State.start; split <;> rfl

/-! writeReg changes registers only (R98) -/

@[simp] theorem State.writeReg_cfg (i : Reg) (v : Word) : (s.writeReg i v).cfg = s.cfg := by
  unfold State.writeReg; split <;> rfl
@[simp] theorem State.writeReg_flags (i : Reg) (v : Word) : (s.writeReg i v).flags = s.flags := by
  unfold State.writeReg; split <;> rfl
@[simp] theorem State.writeReg_fsm (i : Reg) (v : Word) : (s.writeReg i v).fsm = s.fsm := by
  unfold State.writeReg; split <;> rfl
@[simp] theorem State.writeReg_fault (i : Reg) (v : Word) : (s.writeReg i v).fault = s.fault := by
  unfold State.writeReg; split <;> rfl
@[simp] theorem State.writeReg_mem (i : Reg) (v : Word) : (s.writeReg i v).mem = s.mem := by
  unfold State.writeReg; split <;> rfl
@[simp] theorem State.writeReg_inq (i : Reg) (v : Word) : (s.writeReg i v).inq = s.inq := by
  unfold State.writeReg; split <;> rfl
@[simp] theorem State.writeReg_outq (i : Reg) (v : Word) : (s.writeReg i v).outq = s.outq := by
  unfold State.writeReg; split <;> rfl

/-! sequencePc changes registers only (R99) -/

@[simp] theorem State.sequencePc_cfg (a : Word) (b : Bool) : (s.sequencePc a b).cfg = s.cfg := by
  unfold State.sequencePc; split <;> simp
@[simp] theorem State.sequencePc_flags (a : Word) (b : Bool) : (s.sequencePc a b).flags = s.flags := by
  unfold State.sequencePc; split <;> simp
@[simp] theorem State.sequencePc_fsm (a : Word) (b : Bool) : (s.sequencePc a b).fsm = s.fsm := by
  unfold State.sequencePc; split <;> simp
@[simp] theorem State.sequencePc_fault (a : Word) (b : Bool) : (s.sequencePc a b).fault = s.fault := by
  unfold State.sequencePc; split <;> simp
@[simp] theorem State.sequencePc_mem (a : Word) (b : Bool) : (s.sequencePc a b).mem = s.mem := by
  unfold State.sequencePc; split <;> simp
@[simp] theorem State.sequencePc_inq (a : Word) (b : Bool) : (s.sequencePc a b).inq = s.inq := by
  unfold State.sequencePc; split <;> simp
@[simp] theorem State.sequencePc_outq (a : Word) (b : Bool) : (s.sequencePc a b).outq = s.outq := by
  unfold State.sequencePc; split <;> simp

end Sys2Proof.Machine
end

