-- ==== Sys2Proof/Laws/Ops.lean ====
section
/-! SUPPORT. What each shared operation does, said once: registers, PC sequencing, retiring, the load-store unit. -/

namespace Sys2Proof.Machine

/-! ## Registers -/

@[simp] theorem State.readReg_zero (s : State) : s.readReg 0 = 0 := rfl

theorem State.pc_eq (s : State) : s.pc = s.readReg 15 := rfl

/-- A read after a write (R21, R98). -/
theorem State.readReg_writeReg (s : State) (i j : Reg) (v : Word) :
    (s.writeReg i v).readReg j = if j = i ∧ i ≠ 0 then v else s.readReg j := by
  unfold State.writeReg State.readReg
  by_cases hi : i = 0
  · simp [hi]
  · by_cases hj : j = 0
    · subst hj; simp [hi, Ne.symm hi]
    · simp [hi, hj, Vector.getElem_set, Fin.ext_iff, eq_comm]

/-- The store of x[0] is never written. -/
@[simp] theorem State.writeReg_regs_zero (s : State) (i : Reg) (v : Word) : (s.writeReg i v).regs[0] = s.regs[0] := by
  unfold State.writeReg
  split
  · rfl
  · rename_i h
    simp only [Vector.getElem_set]
    rw [if_neg]
    intro e; exact h (Fin.ext e)

/-- Registers are all an update of other fields leaves alone. -/
theorem State.readReg_congr {s t : State} (h : s.regs = t.regs) (i : Reg) : s.readReg i = t.readReg i := by
  simp [State.readReg, h]

theorem State.pc_congr {s t : State} (h : s.regs = t.regs) : s.pc = t.pc := State.readReg_congr h 15

@[simp] theorem State.readReg_setFlags (s : State) (f : CondCode) (i : Reg) : (s.setFlags f).readReg i = s.readReg i := rfl
@[simp] theorem State.readReg_setMem (s : State) (m : Memory) (i : Reg) : (s.setMem m).readReg i = s.readReg i := rfl
@[simp] theorem State.readReg_setInq (s : State) (q : List Word) (i : Reg) : (s.setInq q).readReg i = s.readReg i := rfl
@[simp] theorem State.readReg_emit (s : State) (v : Word) (i : Reg) : (s.emit v).readReg i = s.readReg i := rfl
@[simp] theorem State.readReg_setFsm (s : State) (f : Fsm) (i : Reg) : (s.setFsm f).readReg i = s.readReg i := rfl
@[simp] theorem State.readReg_takeFault (s : State) (e : FaultRecord) (i : Reg) :
    (s.takeFault e).readReg i = s.readReg i := rfl
@[simp] theorem State.readReg_start (s : State) (i : Reg) : s.start.readReg i = s.readReg i :=
  State.readReg_congr (by simp) i
@[simp] theorem State.pc_start (s : State) : s.start.pc = s.pc := State.readReg_start s 15

/-- PC sequencing (R99). -/
theorem State.readReg_sequencePc (s : State) (a : Word) (b : Bool) (j : Reg) :
    (s.sequencePc a b).readReg j = if j = 15 ∧ b = false then a + 1 else s.readReg j := by
  unfold State.sequencePc
  cases b <;> simp [State.readReg_writeReg]

@[simp] theorem State.sequencePc_regs_zero (s : State) (a : Word) (b : Bool) :
    (s.sequencePc a b).regs[0] = s.regs[0] := by
  unfold State.sequencePc
  split <;> simp

/-! ## Retiring (R97 to R99) -/

/-- What an instruction that writes `rt` leaves in each register. -/
theorem State.readReg_retire (s : State) (rt j : Reg) (v : Word) (f : CondCode) :
    (s.retire rt v f).readReg j =
      if j = rt ∧ rt ≠ 0 then v else if j = 15 then s.pc + 1 else s.readReg j := by
  unfold State.retire pcWrittenBy
  rw [State.readReg_sequencePc]
  by_cases hj : j = 15
  · subst hj
    by_cases hr : rt = 15
    · subst hr; simp [State.readReg_writeReg]
    · simp [hr, Ne.symm hr]
  · simp [hj, State.readReg_writeReg]

theorem State.readReg_retireNoWrite (s : State) (j : Reg) (f : CondCode) :
    (s.retireNoWrite f).readReg j = if j = 15 then s.pc + 1 else s.readReg j := by
  unfold State.retireNoWrite
  simp [State.readReg_sequencePc]

theorem State.readReg_advancePc (s : State) (j : Reg) :
    s.advancePc.readReg j = if j = 15 then s.pc + 1 else s.readReg j := by
  unfold State.advancePc
  simp [State.readReg_sequencePc]

section Fields
variable (s : State) (rt : Reg) (v : Word) (f : CondCode)

@[simp] theorem State.retire_cfg : (s.retire rt v f).cfg = s.cfg := by simp [State.retire]
@[simp] theorem State.retire_flags : (s.retire rt v f).flags = f := by simp [State.retire]
@[simp] theorem State.retire_fsm : (s.retire rt v f).fsm = s.fsm := by simp [State.retire]
@[simp] theorem State.retire_fault : (s.retire rt v f).fault = s.fault := by simp [State.retire]
@[simp] theorem State.retire_mem : (s.retire rt v f).mem = s.mem := by simp [State.retire]
@[simp] theorem State.retire_inq : (s.retire rt v f).inq = s.inq := by simp [State.retire]
@[simp] theorem State.retire_outq : (s.retire rt v f).outq = s.outq := by simp [State.retire]
@[simp] theorem State.retire_regs_zero : (s.retire rt v f).regs[0] = s.regs[0] := by simp [State.retire]

@[simp] theorem State.retireNoWrite_cfg : (s.retireNoWrite f).cfg = s.cfg := by simp [State.retireNoWrite]
@[simp] theorem State.retireNoWrite_flags : (s.retireNoWrite f).flags = f := by simp [State.retireNoWrite]
@[simp] theorem State.retireNoWrite_fsm : (s.retireNoWrite f).fsm = s.fsm := by simp [State.retireNoWrite]
@[simp] theorem State.retireNoWrite_fault : (s.retireNoWrite f).fault = s.fault := by simp [State.retireNoWrite]
@[simp] theorem State.retireNoWrite_mem : (s.retireNoWrite f).mem = s.mem := by simp [State.retireNoWrite]
@[simp] theorem State.retireNoWrite_inq : (s.retireNoWrite f).inq = s.inq := by simp [State.retireNoWrite]
@[simp] theorem State.retireNoWrite_outq : (s.retireNoWrite f).outq = s.outq := by simp [State.retireNoWrite]
@[simp] theorem State.retireNoWrite_regs_zero : (s.retireNoWrite f).regs[0] = s.regs[0] := by
  simp [State.retireNoWrite]

@[simp] theorem State.advancePc_cfg : s.advancePc.cfg = s.cfg := by simp [State.advancePc]
@[simp] theorem State.advancePc_flags : s.advancePc.flags = s.flags := by simp [State.advancePc]
@[simp] theorem State.advancePc_fsm : s.advancePc.fsm = s.fsm := by simp [State.advancePc]
@[simp] theorem State.advancePc_fault : s.advancePc.fault = s.fault := by simp [State.advancePc]
@[simp] theorem State.advancePc_mem : s.advancePc.mem = s.mem := by simp [State.advancePc]
@[simp] theorem State.advancePc_inq : s.advancePc.inq = s.inq := by simp [State.advancePc]
@[simp] theorem State.advancePc_outq : s.advancePc.outq = s.outq := by simp [State.advancePc]
@[simp] theorem State.advancePc_regs_zero : s.advancePc.regs[0] = s.regs[0] := by simp [State.advancePc]

end Fields

/-! ## Flags -/

/-- The sign flag never is V (R97). -/
theorem signFlag_ne_V (r : Word) : signFlag r ≠ .V := by
  unfold signFlag
  split
  · simp
  · split <;> simp

/-! ## Memory primitives (R41, R42) -/

theorem State.memRead_ok {s : State} {a : Word} (h : s.inBounds a) (k : AccessKind) (pc : Word) :
    s.memRead a k pc = .ok (s.mem.read a.toNat) := if_pos h

theorem State.memRead_error {s : State} {a : Word} (h : ¬ s.inBounds a) (k : AccessKind) (pc : Word) :
    s.memRead a k pc = .error (.memoryBounds a k pc) := if_neg h

theorem State.memWrite_ok {s : State} {a : Word} (h : s.inBounds a) (v pc : Word) :
    s.memWrite a v pc = .ok (s.setMem (s.mem.write a.toNat v)) := if_pos h

theorem State.memWrite_error {s : State} {a : Word} (h : ¬ s.inBounds a) (v pc : Word) :
    s.memWrite a v pc = .error (.memoryBounds a .store pc) := if_neg h

/-! ## The load-store unit (R132, R133, R135) -/

/-- Everything a LOAD access can answer. -/
theorem loadUnit_cases (s : State) (ea pc : Word) :
    (¬ s.inBounds ea ∧ loadUnit s ea pc = .bounds (.memoryBounds ea .load pc)) ∨
    (s.inBounds ea ∧ ea = s.cfg.ioInAddr ∧ s.inq = [] ∧ loadUnit s ea pc = .blocked) ∨
    (∃ v q, s.inBounds ea ∧ ea = s.cfg.ioInAddr ∧ s.inq = v :: q ∧ loadUnit s ea pc = .loaded v (s.setInq q)) ∨
    (s.inBounds ea ∧ ea ≠ s.cfg.ioInAddr ∧ loadUnit s ea pc = .loaded (s.mem.read ea.toNat) s) := by
  by_cases hb : s.inBounds ea
  · by_cases hi : ea = s.cfg.ioInAddr
    · have hu : loadUnit s ea pc = inRead s := if_pos ⟨hb, hi⟩
      cases hq : s.inq with
      | nil => exact .inr (.inl ⟨hb, hi, rfl, by simp [hu, inRead, hq]⟩)
      | cons v q => exact .inr (.inr (.inl ⟨v, q, hb, hi, rfl, by simp [hu, inRead, hq]⟩))
    · refine .inr (.inr (.inr ⟨hb, hi, ?_⟩))
      rw [loadUnit, if_neg (fun h => hi h.2), cellRead, State.memRead_ok hb]
  · refine .inl ⟨hb, ?_⟩
    rw [loadUnit, if_neg (fun h => hb h.1), cellRead, State.memRead_error hb]

/-- Everything a STORE access can answer. -/
theorem storeUnit_cases (s : State) (ea v pc : Word) :
    (¬ s.inBounds ea ∧ storeUnit s ea v pc = .error (.memoryBounds ea .store pc)) ∨
    (s.inBounds ea ∧ ea = s.cfg.ioOutAddr ∧ storeUnit s ea v pc = .ok (s.emit v)) ∨
    (s.inBounds ea ∧ ea ≠ s.cfg.ioOutAddr ∧ storeUnit s ea v pc = .ok (s.setMem (s.mem.write ea.toNat v))) := by
  by_cases hb : s.inBounds ea
  · by_cases ho : ea = s.cfg.ioOutAddr
    · exact .inr (.inl ⟨hb, ho, if_pos ⟨hb, ho⟩⟩)
    · refine .inr (.inr ⟨hb, ho, ?_⟩)
      rw [storeUnit, if_neg (fun h => ho h.2), State.memWrite_ok hb]
  · refine .inl ⟨hb, ?_⟩
    rw [storeUnit, if_neg (fun h => hb h.1), State.memWrite_error hb]

/-! ## The meanings -/

theorem predicated_of_true {o : Operands} {s : State} (h : condTrue o.mask s.flags = true) (e : Result) :
    predicated o s e = e := if_pos h

theorem predicated_of_false {o : Operands} {s : State} (h : condTrue o.mask s.flags = false) (e : Result) :
    predicated o s e = .next s.advancePc := by simp [predicated, h]

/-- Everything an executed LOAD can answer (R132). -/
theorem loadEffect_cases (rt : Reg) (ea : Word) (s : State) :
    (¬ s.inBounds ea ∧ loadEffect rt ea s = .next (s.takeFault (.memoryBounds ea .load s.pc))) ∨
    (s.inBounds ea ∧ ea = s.cfg.ioInAddr ∧ s.inq = [] ∧ loadEffect rt ea s = .fault .blockedOnInput) ∨
    (∃ v q, s.inBounds ea ∧ ea = s.cfg.ioInAddr ∧ s.inq = v :: q ∧
      loadEffect rt ea s = .next ((s.setInq q).retire rt v (signFlag ea))) ∨
    (s.inBounds ea ∧ ea ≠ s.cfg.ioInAddr ∧
      loadEffect rt ea s = .next (s.retire rt (s.mem.read ea.toNat) (signFlag ea))) := by
  unfold loadEffect
  obtain ⟨hb, h⟩ | ⟨hb, hi, hq, h⟩ | ⟨v, q, hb, hi, hq, h⟩ | ⟨hb, hi, h⟩ := loadUnit_cases s ea s.pc
  · exact .inl ⟨hb, by rw [h]⟩
  · exact .inr (.inl ⟨hb, hi, hq, by rw [h]⟩)
  · exact .inr (.inr (.inl ⟨v, q, hb, hi, hq, by rw [h]⟩))
  · exact .inr (.inr (.inr ⟨hb, hi, by rw [h]⟩))

/-- Everything an executed STORE can answer (R133). -/
theorem storeEffect_cases (rt : Reg) (ea : Word) (s : State) :
    (¬ s.inBounds ea ∧ storeEffect rt ea s = .next (s.takeFault (.memoryBounds ea .store s.pc))) ∨
    (s.inBounds ea ∧ ea = s.cfg.ioOutAddr ∧
      storeEffect rt ea s = .next ((s.emit (s.readReg rt)).retireNoWrite (signFlag ea))) ∨
    (s.inBounds ea ∧ ea ≠ s.cfg.ioOutAddr ∧
      storeEffect rt ea s =
        .next ((s.setMem (s.mem.write ea.toNat (s.readReg rt))).retireNoWrite (signFlag ea))) := by
  unfold storeEffect
  obtain ⟨hb, h⟩ | ⟨hb, ho, h⟩ | ⟨hb, ho, h⟩ := storeUnit_cases s ea (s.readReg rt) s.pc
  · exact .inl ⟨hb, by rw [h]⟩
  · exact .inr (.inl ⟨hb, ho, by rw [h]⟩)
  · exact .inr (.inr ⟨hb, ho, by rw [h]⟩)

end Sys2Proof.Machine
end

