-- ==== Sys2Proof/Laws/Exec.lean ====
section
/-! SUPPORT. What exec, a cycle and a step can do, said once: later proofs cite these and unfold no meaning. -/

namespace Sys2Proof.Machine

/-! ## Each meaning under its mask -/

/-- A masked-off instruction (R95). -/
theorem exec_masked {i : Instr} {s : State} (h : condTrue i.operands.mask s.flags = false) :
    exec i s = .next s.advancePc := by
  cases i <;> exact predicated_of_false h _

theorem exec_halt {o : Operands} {s : State} (h : condTrue o.mask s.flags = true) :
    exec (.halt o) s = .next ((s.setFsm .halted).retireNoWrite s.flags) := predicated_of_true h _

theorem exec_load {o : Operands} {s : State} (h : condTrue o.mask s.flags = true) :
    exec (.load o) s = loadEffect o.rt (effectiveAddress o s) s := predicated_of_true h _

theorem exec_store {o : Operands} {s : State} (h : condTrue o.mask s.flags = true) :
    exec (.store o) s = storeEffect o.rt (effectiveAddress o s) s := predicated_of_true h _

theorem exec_add {o : Operands} {s : State} (h : condTrue o.mask s.flags = true) :
    exec (.add o) s = .next (s.retire o.rt (operand1 o s + operand2 o s) (signFlag (operand1 o s + operand2 o s))) :=
  predicated_of_true h _

theorem exec_sub {o : Operands} {s : State} (h : condTrue o.mask s.flags = true) :
    exec (.sub o) s = .next (s.retire o.rt (operand1 o s - operand2 o s) (signFlag (operand1 o s - operand2 o s))) :=
  predicated_of_true h _

theorem exec_mul {o : Operands} {s : State} (h : condTrue o.mask s.flags = true) :
    exec (.mul o) s = .next (s.retire o.rt (wrap ((operand1 o s).toInt * (operand2 o s).toInt))
      (signFlag (wrap ((operand1 o s).toInt * (operand2 o s).toInt)))) :=
  predicated_of_true h _

theorem exec_div_zero {o : Operands} {s : State} (h : condTrue o.mask s.flags = true) (hz : operand2 o s = 0) :
    exec (.div o) s = .next (s.retireNoWrite .V) := by
  show predicated o s _ = _
  rw [predicated_of_true h, alu, aluDiv, if_pos hz]
  rfl

theorem exec_div_nonzero {o : Operands} {s : State} (h : condTrue o.mask s.flags = true) (hz : operand2 o s ≠ 0) :
    exec (.div o) s = .next (s.retire o.rt (wrap (Int.tdiv (operand1 o s).toInt (operand2 o s).toInt))
      (signFlag (wrap (Int.tdiv (operand1 o s).toInt (operand2 o s).toInt)))) := by
  show predicated o s _ = _
  rw [predicated_of_true h, alu, aluDiv, if_neg hz]
  rfl

/-! ## The inversion of exec -/

/-- Everything an instruction can turn a state into. -/
inductive ExecTo (s : State) : Instr → State → Prop where
  | masked {i} : condTrue i.operands.mask s.flags = false → ExecTo s i s.advancePc
  | halt {o} : condTrue o.mask s.flags = true → ExecTo s (.halt o) ((s.setFsm .halted).retireNoWrite s.flags)
  | add {o} : condTrue o.mask s.flags = true → ExecTo s (.add o)
      (s.retire o.rt (operand1 o s + operand2 o s) (signFlag (operand1 o s + operand2 o s)))
  | sub {o} : condTrue o.mask s.flags = true → ExecTo s (.sub o)
      (s.retire o.rt (operand1 o s - operand2 o s) (signFlag (operand1 o s - operand2 o s)))
  | mul {o} (r : Word) : condTrue o.mask s.flags = true → r = wrap ((operand1 o s).toInt * (operand2 o s).toInt) →
      ExecTo s (.mul o) (s.retire o.rt r (signFlag r))
  | div {o} (r : Word) : condTrue o.mask s.flags = true → operand2 o s ≠ 0 →
      r = wrap (Int.tdiv (operand1 o s).toInt (operand2 o s).toInt) →
      ExecTo s (.div o) (s.retire o.rt r (signFlag r))
  | divZero {o} : condTrue o.mask s.flags = true → operand2 o s = 0 → ExecTo s (.div o) (s.retireNoWrite .V)
  | loadCell {o} : condTrue o.mask s.flags = true → s.inBounds (effectiveAddress o s) →
      effectiveAddress o s ≠ s.cfg.ioInAddr →
      ExecTo s (.load o) (s.retire o.rt (s.mem.read (effectiveAddress o s).toNat) (signFlag (effectiveAddress o s)))
  | loadPort {o} (v : Word) (q : List Word) : condTrue o.mask s.flags = true → s.inBounds (effectiveAddress o s) →
      effectiveAddress o s = s.cfg.ioInAddr → s.inq = v :: q →
      ExecTo s (.load o) ((s.setInq q).retire o.rt v (signFlag (effectiveAddress o s)))
  | loadFault {o} : condTrue o.mask s.flags = true → ¬ s.inBounds (effectiveAddress o s) →
      ExecTo s (.load o) (s.takeFault (.memoryBounds (effectiveAddress o s) .load s.pc))
  | storeCell {o} : condTrue o.mask s.flags = true → s.inBounds (effectiveAddress o s) →
      effectiveAddress o s ≠ s.cfg.ioOutAddr →
      ExecTo s (.store o) ((s.setMem (s.mem.write (effectiveAddress o s).toNat (s.readReg o.rt))).retireNoWrite
        (signFlag (effectiveAddress o s)))
  | storePort {o} : condTrue o.mask s.flags = true → s.inBounds (effectiveAddress o s) →
      effectiveAddress o s = s.cfg.ioOutAddr →
      ExecTo s (.store o) ((s.emit (s.readReg o.rt)).retireNoWrite (signFlag (effectiveAddress o s)))
  | storeFault {o} : condTrue o.mask s.flags = true → ¬ s.inBounds (effectiveAddress o s) →
      ExecTo s (.store o) (s.takeFault (.memoryBounds (effectiveAddress o s) .store s.pc))

/-- exec goes on in one of these ways, or it is a LOAD blocked on input. -/
theorem exec_cases (i : Instr) (s : State) :
    (∃ t, exec i s = .next t ∧ ExecTo s i t) ∨
    (exec i s = .fault .blockedOnInput ∧ ∃ o, i = .load o ∧ condTrue o.mask s.flags = true ∧
      s.inBounds (effectiveAddress o s) ∧ effectiveAddress o s = s.cfg.ioInAddr ∧ s.inq = []) := by
  cases hc : condTrue i.operands.mask s.flags with
  | false => exact .inl ⟨_, exec_masked hc, .masked hc⟩
  | true =>
    cases i with
    | halt o => exact .inl ⟨_, exec_halt hc, .halt hc⟩
    | add o => exact .inl ⟨_, exec_add hc, .add hc⟩
    | sub o => exact .inl ⟨_, exec_sub hc, .sub hc⟩
    | mul o => exact .inl ⟨_, exec_mul hc, .mul _ hc rfl⟩
    | div o =>
      by_cases hz : operand2 o s = 0
      · exact .inl ⟨_, exec_div_zero hc hz, .divZero hc hz⟩
      · exact .inl ⟨_, exec_div_nonzero hc hz, .div _ hc hz rfl⟩
    | load o =>
      rw [exec_load (o := o) hc]
      obtain ⟨hb, h⟩ | ⟨hb, hi, hq, h⟩ | ⟨v, q, hb, hi, hq, h⟩ | ⟨hb, hi, h⟩ :=
        loadEffect_cases o.rt (effectiveAddress o s) s
      · exact .inl ⟨_, h, .loadFault hc hb⟩
      · exact .inr ⟨h, o, rfl, hc, hb, hi, hq⟩
      · exact .inl ⟨_, h, .loadPort v q hc hb hi hq⟩
      · exact .inl ⟨_, h, .loadCell hc hb hi⟩
    | store o =>
      rw [exec_store (o := o) hc]
      obtain ⟨hb, h⟩ | ⟨hb, ho, h⟩ | ⟨hb, ho, h⟩ := storeEffect_cases o.rt (effectiveAddress o s) s
      · exact .inl ⟨_, h, .storeFault hc hb⟩
      · exact .inl ⟨_, h, .storePort hc hb ho⟩
      · exact .inl ⟨_, h, .storeCell hc hb ho⟩

theorem exec_next {i : Instr} {s t : State} (h : exec i s = .next t) : ExecTo s i t := by
  obtain ⟨u, hu, hx⟩ | ⟨hf, _⟩ := exec_cases i s
  · rw [h] at hu; injection hu with e; exact e ▸ hx
  · rw [h] at hf; cases hf

/-! ## The cycle and the step -/

/-- A decode error names the opcode field, which is 7 to 31 (30_encoding.md R67). -/
theorem decode_error {w : Word} {e : DecodeError} (h : decode w = .error e) :
    e = .unknownOpcode (opField w) ∧ 6 < (opField w).toNat := by
  unfold decode Decoded.instr at h
  split at h
  case h_8 h0 h1 h2 h3 h4 h5 h6 =>
    injection h with h
    refine ⟨h.symm, ?_⟩
    simp only [decodeFields, imp_false] at h0 h1 h2 h3 h4 h5 h6
    omega
  all_goals cases h

/-- A decoded instruction has the word's operand fields and opcode, which is 0 to 6 (30_encoding.md R66). -/
theorem decode_ok {w : Word} {i : Instr} (h : decode w = .ok i) :
    i.operands = operandFields w ∧ i.opcode = (opField w).toNat ∧ (opField w).toNat ≤ 6 := by
  unfold decode Decoded.instr at h
  split at h <;> cases h
  all_goals
    rename_i h0
    simp only [decodeFields] at h0 ⊢
    refine ⟨rfl, ?_, ?_⟩ <;> simp [Instr.opcode, h0]

/-- What a cycle does. -/
theorem cycle_cases (s : State) :
    (¬ s.inBounds s.pc ∧ cycle s = .next (s.takeFault (.memoryBounds s.pc .fetch s.pc))) ∨
    (s.FetchesUnknown ∧ cycle s = .next (s.takeFault (.unknownOpcode (opField (s.mem.read s.pc.toNat)) s.pc))) ∨
    (∃ i, s.Fetches i ∧ cycle s = exec i s) := by
  by_cases hb : s.inBounds s.pc
  · have hf : s.fetch = .ok (s.mem.read s.pc.toNat) := State.memRead_ok hb _ _
    cases hd : decode (s.mem.read s.pc.toNat) with
    | ok i => exact .inr (.inr ⟨i, ⟨hb, hd⟩, by simp [cycle, hf, runWord, hd]⟩)
    | error e =>
      obtain ⟨rfl, h6⟩ := decode_error hd
      exact .inr (.inl ⟨⟨hb, h6⟩, by simp [cycle, hf, runWord, hd]⟩)
  · have hf : s.fetch = .error (.memoryBounds s.pc .fetch s.pc) := State.memRead_error hb _ _
    exact .inl ⟨hb, by simp [cycle, hf]⟩

theorem cycle_of_fetches {s : State} {i : Instr} (h : s.Fetches i) : cycle s = exec i s := by
  have hf : s.fetch = .ok (s.mem.read s.pc.toNat) := State.memRead_ok h.1 _ _
  simp [cycle, hf, runWord, h.2]

theorem step_ready {s : State} (h : s.fsm = .ready) : step s = cycle s.start := by simp [step, h]

theorem step_running {s : State} (h : s.fsm = .running) : step s = cycle s := by simp [step, h]

theorem step_terminal {s : State} (h : s.fsm = .halted ∨ s.fsm = .faulted) : step s = .next s := by
  rcases h with h | h <;> simp [step, h]

theorem State.start_of_running {s : State} (h : s.fsm = .running) : s.start = s := by simp [State.start, h]

/-- The step of an active CORE is a cycle from the started state. -/
theorem step_active {s : State} (h : s.Active) : step s = cycle s.start := by
  rcases h with h | h
  · exact step_ready h
  · rw [step_running h, State.start_of_running h]

theorem State.start_fsm_of_active {s : State} (h : s.Active) : s.start.fsm = .running := by
  rcases h with h | h <;> simp [h]

/-- Start changes nothing the cycle reads. -/
@[simp] theorem effectiveAddress_start (o : Operands) (s : State) :
    effectiveAddress o s.start = effectiveAddress o s := by
  simp [effectiveAddress, operand1, operand2]

@[simp] theorem operand1_start (o : Operands) (s : State) : operand1 o s.start = operand1 o s := by simp [operand1]

@[simp] theorem operand2_start (o : Operands) (s : State) : operand2 o s.start = operand2 o s := by simp [operand2]

/-- What the step of an active CORE does. -/
theorem step_cases {s : State} (h : s.Active) :
    (¬ s.inBounds s.pc ∧ step s = .next (s.start.takeFault (.memoryBounds s.pc .fetch s.pc))) ∨
    (s.FetchesUnknown ∧
      step s = .next (s.start.takeFault (.unknownOpcode (opField (s.mem.read s.pc.toNat)) s.pc))) ∨
    (∃ i, s.Fetches i ∧ step s = exec i s.start) := by
  rw [step_active h]
  have := cycle_cases s.start
  simpa [State.Fetches, State.FetchesUnknown, State.inBounds] using this

theorem step_of_fetches {s : State} {i : Instr} (h : s.Active) (hf : s.Fetches i) : step s = exec i s.start := by
  rw [step_active h]
  exact cycle_of_fetches (by simpa [State.Fetches, State.inBounds] using hf)

/-- A started state that takes a fault is the state itself taking it: the fault overwrites what start wrote. -/
theorem State.takeFault_start (s : State) (e : FaultRecord) : s.start.takeFault e = s.takeFault e := by
  unfold State.start
  split <;> rfl

end Sys2Proof.Machine
end

