-- ==== Sys2Proof/Laws/Frames.lean ====
section
/-! SUPPORT. The frames of Safety.lean for the two ways an instruction retires, and the words the ALU computes. -/

namespace Sys2Proof

/-- Exact sums, differences and products, wrapped, are the bit vector operations (00_scope.md R10). -/
theorem wrap_add_toNat (a b : Word) : wrap ((a.toNat : Int) + b.toNat) = a + b := by
  apply BitVec.eq_of_toNat_eq
  simp [wrap, BitVec.toNat_ofInt, BitVec.toNat_add]
  omega

theorem wrap_sub_toNat (a b : Word) : wrap ((a.toNat : Int) - b.toNat) = a - b := by
  apply BitVec.eq_of_toNat_eq
  simp [wrap, BitVec.toNat_ofInt, BitVec.toNat_sub]
  omega

theorem wrap_mul_toInt (a b : Word) : wrap (a.toInt * b.toInt) = a * b := by
  unfold wrap
  rw [BitVec.ofInt_mul]
  simp

theorem wrap_tdiv_toInt (a b : Word) : wrap (Int.tdiv a.toInt b.toInt) = a.sdiv b := by
  unfold wrap
  apply BitVec.eq_of_toInt_eq
  rw [BitVec.toInt_ofInt, BitVec.toInt_sdiv]

/-- The opcode field on wires and as extracted. -/
theorem extractLsb'_eq_opField (w : Word) : w.extractLsb' 26 5 = opField w := by
  apply BitVec.eq_of_toNat_eq
  simp [opField, fieldUnsigned, Nat.shiftRight_eq_div_pow]

namespace Machine

theorem WritesReg.retire (s : State) (rt : Reg) (v : Word) (f : CondCode) : WritesReg s (s.retire rt v f) rt v where
  zero := by simp
  dest h := by simp [State.readReg_retire, h]
  others j h h' := by simp [State.readReg_retire, h, h']
  pc := by
    rw [State.readReg_retire]
    by_cases h : rt = 15
    · simp [h]
    · simp [h, Ne.symm h, State.pc_eq]

theorem WritesNoReg.retireNoWrite (s : State) (f : CondCode) : WritesNoReg s (s.retireNoWrite f) where
  others j h := by simp [State.readReg_retireNoWrite, h]
  pc := by simp [State.readReg_retireNoWrite, State.pc_eq]

/-- Only the registers of the state before matter to the frames. -/
theorem WritesReg.of_regs_eq {s s' t : State} {rt : Reg} {v : Word} (h : WritesReg s' t rt v) (e : s'.regs = s.regs) :
    WritesReg s t rt v where
  zero := h.zero
  dest := h.dest
  others j a b := (h.others j a b).trans (State.readReg_congr e j)
  pc := by rw [h.pc, State.readReg_congr e]

theorem WritesNoReg.of_regs_eq {s s' t : State} (h : WritesNoReg s' t) (e : s'.regs = s.regs) : WritesNoReg s t where
  others j a := (h.others j a).trans (State.readReg_congr e j)
  pc := by rw [h.pc, State.readReg_congr e]

/-- A state is Ready, Running or terminal. -/
theorem State.ended_of_not_active {s : State} (h : ¬ s.Active) : s.fsm = .halted ∨ s.fsm = .faulted := by
  unfold State.Active at h
  cases e : s.fsm <;> simp_all

/-- The step of a state that executes `i` is `exec i` from the started state. -/
theorem step_of_executes {s : State} {i : Instr} (h : s.Executes i) : step s = exec i s.start :=
  step_of_fetches h.1 h.2.1

end Machine

end Sys2Proof
end

