-- ==== Sys2Proof/Laws/PerInstr.lean ====
section
/-! SUPPORT. A family of facts stated for each instruction. `OpcodeField`: the word of the instruction carries its
number of the opcode map in bits 30:26 (30_encoding.md R61, R66) and 0 in bit 31 (R68). -/

namespace Sys2Proof.Laws.OpcodeField

/-- Opcode field and bit 31 of the instruction's word. -/
def Statement (i : Instr) : Prop := (encode i).toNat / 2 ^ 26 = i.opcode

theorem all_packed (op : Nat) (o : Operands) (h : op ≤ 6) : (packWord op o).toNat / 2 ^ 26 = op := by
  have hm := o.mask.toNat_lt
  have h1 := o.rt.isLt
  have h2 := o.rs1.isLt
  have h3 := o.rs2.isLt
  rw [packWord_toNat op o (by omega)]
  omega

theorem halt (o : Operands) : Statement (.halt o) := all_packed 0 o (by decide)
theorem load (o : Operands) : Statement (.load o) := all_packed 1 o (by decide)
theorem store (o : Operands) : Statement (.store o) := all_packed 2 o (by decide)
theorem add (o : Operands) : Statement (.add o) := all_packed 3 o (by decide)
theorem sub (o : Operands) : Statement (.sub o) := all_packed 4 o (by decide)
theorem mul (o : Operands) : Statement (.mul o) := all_packed 5 o (by decide)
theorem div (o : Operands) : Statement (.div o) := all_packed 6 o (by decide)

end Sys2Proof.Laws.OpcodeField
end

