-- ==== Sys2Proof/Tests/Slice0.lean ====
section
/-! SUPPORT. Tests. Expected results are the spec's: 95_test_vectors.md sections 2.1 to 2.8, or a rule's own example.
Then, for each statement with hypotheses, a witness that meets them together, clause by clause at its boundary. -/

open Sys2Proof Sys2Proof.Machine

namespace Sys2Proof.Tests

/-! ## Helpers -/

/-- The state of the spec's single-instruction vectors: Running, a = 0x10, flag `f`, the registers and memory words
listed, the word `w` at a. -/
def vector (w : Word) (f : CondCode) (rs : List (Reg × Word)) (ms : List (Nat × Word)) : State :=
  let s := ((State.reset.setFsm .running).setFlags f).writeReg 15 0x10
  let s := rs.foldl (fun t r => t.writeReg r.1 r.2) s
  (s.setMem (ms.foldl (fun m c => m.write c.1 c.2) s.mem)).storeAtPc w

/-- The next state, if there is one. -/
def nextOf : Result → Option State
  | .next t => some t
  | .fault _ => none
  | .refused _ => none

/-- What a test looks at after one step. -/
def after (s : State) (look : State → α) : Option α := (nextOf (step s)).map look

/-- A register, F and the pc. -/
def regFlagPc (i : Reg) (t : State) : Word × CondCode × Word := (t.readReg i, t.flags, t.pc)

def always : Mask := ⟨true, true, true, true⟩
def never : Mask := ⟨false, false, false, false⟩

/-! ## WellFormed -/

theorem test_wf_refuses_disp_above : ¬ (Instr.add ⟨always, 1, 0, 0, 512⟩).wf := by decide
theorem test_wf_refuses_disp_below : ¬ (Instr.load ⟨always, 1, 0, 0, -513⟩).wf := by decide
theorem test_wf_takes_the_ends : (Instr.add ⟨always, 1, 0, 0, 511⟩).wf ∧ (Instr.add ⟨always, 1, 0, 0, -512⟩).wf := by
  decide

/-! ## Codec, decoder, encoder (sections 2.1 to 2.3) -/

theorem test_extract :
    extractField 0xF0000000 4 28 false = .ok 15 ∧ extractField 0xF0000000 4 28 true = .ok (-1) ∧
    extractField 0x00000200 10 0 true = .ok (-512) ∧ extractField 0x80000000 1 31 false = .ok 1 ∧
    extractField 0 4 29 false = .error .contract ∧ extractField 0 0 0 false = .error .contract := by decide

theorem test_insert :
    insertField 0xFFFFFFFF 4 4 0 false = .ok 0xFFFFFF0F ∧ insertField 0 4 0 (-1) true = .ok 0x0000000F ∧
    insertField 0 10 0 (-512) true = .ok 0x00000200 ∧ insertField 0 4 0 8 true = .error .encodingRange ∧
    insertField 0 4 0 16 false = .error .encodingRange ∧ insertField 0 4 0 (-1) false = .error .encodingRange := by
  decide

/-- E1: ADD r1,r1,r2, bit by bit 0|00011|1111|0001|0001|0010|0000000000. -/
theorem test_decode_add : decode 0b00001111110001000100100000000000 = .ok (.add ⟨always, 1, 1, 2, 0⟩) := by decide
/-- LOAD r2,r0,r0[-1]: 0|00001|1111|0010|0000|0000|1111111111. -/
theorem test_decode_load : decode 0b00000111110010000000001111111111 = .ok (.load ⟨always, 2, 0, 0, -1⟩) := by decide
/-- STORE r3,r1,r0[2]: 0|00010|1111|0011|0001|0000|0000000010. -/
theorem test_decode_store : decode 0b00001011110011000100000000000010 = .ok (.store ⟨always, 3, 1, 0, 2⟩) := by decide
/-- SUB r1,r2,r3[-1]: 0|00100|1111|0001|0010|0011|1111111111. -/
theorem test_decode_sub : decode 0b00010011110001001000111111111111 = .ok (.sub ⟨always, 1, 2, 3, -1⟩) := by decide
/-- MUL r1,r2,r0[4]: 0|00101|1111|0001|0010|0000|0000000100. -/
theorem test_decode_mul : decode 0b00010111110001001000000000000100 = .ok (.mul ⟨always, 1, 2, 0, 4⟩) := by decide
/-- DIV r1,r2,r0[-2]: 0|00110|1111|0001|0010|0000|1111111110. -/
theorem test_decode_div : decode 0b00011011110001001000001111111110 = .ok (.div ⟨always, 1, 2, 0, -2⟩) := by decide
/-- HALT/Z with bit 31 set: 1|00000|0010|0000|0000|0000|0000000000. -/
theorem test_decode_halt : decode 0b10000000100000000000000000000000 = .ok (.halt ⟨⟨false, true, false, false⟩, 0, 0, 0, 0⟩) := by
  decide
theorem test_decode_unknown : decode 0x7FFFFFFF = .error (.unknownOpcode 31) ∧ decode 0x1C000000 = .error (.unknownOpcode 7) := by
  decide

theorem test_encode :
    encode (.add ⟨always, 1, 0, 0, 1⟩) = 0x0FC40001 ∧ encode (.halt ⟨always, 0, 0, 0, 0⟩) = 0x03C00000 ∧
    encode (.div ⟨always, 2, 1, 0, 0⟩) = 0x1BC84000 ∧
    encode (.add ⟨⟨false, false, true, false⟩, 15, 15, 0, -2⟩) = 0x0D3FC3FE := by decide

theorem test_encodeFields :
    encodeFields 31 15 15 15 15 (-1) = .ok 0x7FFFFFFF ∧ encodeFields 32 15 0 0 0 0 = .error .encodingRange ∧
    encodeFields 3 16 0 0 0 0 = .error .encodingRange ∧ encodeFields 3 15 16 0 0 0 = .error .encodingRange ∧
    encodeFields 3 15 0 0 0 512 = .error .encodingRange ∧ encodeFields 3 15 0 0 0 (-513) = .error .encodingRange := by
  decide

/-! ## ALU (section 2.5) -/

theorem test_add_wraps : after (vector 0x0FC48001 .P [(2, 0x7FFFFFFF)] []) (regFlagPc 1) = some (0x80000000, .M, 0x11) := by
  decide
theorem test_add_own_operand : after (vector 0x0FC44400 .P [(1, 7)] []) (regFlagPc 1) = some (0xE, .P, 0x11) := by decide
theorem test_sub_order : after (vector 0x13C48FFF .P [(2, 10), (3, 4)] []) (regFlagPc 1) = some (7, .P, 0x11) := by decide
theorem test_sub_r0 : after (vector 0x13C08C00 .P [(2, 5), (3, 5)] []) (regFlagPc 0) = some (0, .Z, 0x11) := by decide
theorem test_mul_sign : after (vector 0x17C48004 .P [(2, 0xFFFFFFFD)] []) (regFlagPc 1) = some (0xFFFFFFF4, .M, 0x11) := by
  decide
theorem test_mul_high_lost : after (vector 0x17C48C00 .P [(2, 0x10000), (3, 0x10000)] []) (regFlagPc 1) = some (0, .Z, 0x11) := by
  decide
theorem test_div_truncates : after (vector 0x1BC48002 .P [(2, 0xFFFFFFF9)] []) (regFlagPc 1) = some (0xFFFFFFFD, .M, 0x11) := by
  decide
theorem test_div_by_zero : after (vector 0x1BC48FFF .P [(1, 0x55), (2, 5), (3, 1)] []) (regFlagPc 1) = some (0x55, .V, 0x11) := by
  decide

/-! ## Load-store (section 2.6) -/

/-- LOAD r2,r1,r3[3] with EA 15: the spec's own vector has EA 16 = 0x10, the address of the LOAD itself, so that its
mem[16] cannot hold both words (NOTES.md). -/
theorem test_load_cell :
    after (vector 0x07C84C03 .Z [(1, 10), (3, 2)] [(15, 0xCAFE)]) (regFlagPc 2) = some (0xCAFE, .P, 0x11) ∧
    after (vector 0x07FC0007 .Z [] [(7, 0x40)]) (regFlagPc 15) = some (0x40, .P, 0x40) := by decide
theorem test_load_port :
    after ((vector 0x07C401FE .Z [] [(510, 5)]).setInq [42, 43]) (fun t => (t.readReg 1, t.inq, t.mem.read 510)) =
      some (42, [43], 5) := by decide
theorem test_store_cell :
    after (vector 0x0BFC0014 .Z [] []) (fun t => (t.mem.read 20, t.pc, t.flags)) = some (0x10, 0x11, .P) ∧
    after (vector 0x0BCC4800 .Z [(1, 0x80000000), (2, 0x80000000), (3, 6)] []) (fun t => (t.mem.read 0, t.flags)) =
      some (6, .Z) := by decide
theorem test_store_port :
    after (vector 0x0BCC01FF .Z [(3, 42)] []) (fun t => (t.outq, t.mem.read 511)) = some ([42], 0) := by decide

/-! ## Control, masks and faults (sections 2.7 and 2.8) -/

theorem test_halt : after (vector 0x03FC0000 .Z [] []) (fun t => (t.fsm, t.pc, t.flags)) = some (.halted, 0x11, .Z) := by
  decide
theorem test_halt_masked : after (vector 0x00800000 .P [] []) (fun t => (t.fsm, t.pc, t.flags)) = some (.running, 0x11, .P) := by
  decide
theorem test_unknown_opcode_masked :
    after (vector 0x1C000000 .Z [] []) (fun t => (t.fsm, t.fault, t.pc)) = some (.faulted, some (.unknownOpcode 7 0x10), 0x10) := by
  decide
theorem test_load_out_of_bounds :
    after (vector 0x07C803FF .Z [] []) (fun t => (t.fault, t.pc)) = some (some (.memoryBounds 0xFFFFFFFF .load 0x10), 0x10) := by
  decide
theorem test_fetch_out_of_bounds :
    after ((vector 0 .Z [] []).writeReg 15 1024) (·.fault) = some (some (.memoryBounds 0x400 .fetch 0x400)) := by decide
theorem test_blocked : after (vector 0x07C401FE .Z [] []) (·.pc) = none := by decide
theorem test_withFetchWord : after (State.reset.withFetchWord 32 0x0FC40001) (regFlagPc 1) = some (1, .P, 1) := by decide
theorem test_loadProgram_out_of_range : State.reset.loadProgram [1, 2] 1023 = .error (.memoryBounds 1024) := by decide

/-! ## Witnesses of the statements' hypotheses -/

theorem witness_ExtractReadsItsField : (1 ≤ 4 ∧ 28 + 4 ≤ 32) ∧ 32 < 29 + 4 := by decide
theorem witness_InsertThenExtract :
    descriptorOk 10 22 ∧ insertable 10 (-512) true ∧ insertable 10 511 true ∧ insertable 10 1023 false := by decide
theorem witness_CodecRejects :
    ¬ descriptorOk 0 0 ∧ ¬ descriptorOk 4 29 ∧ descriptorOk 4 0 ∧ ¬ insertable 4 8 true ∧ ¬ insertable 4 16 false ∧
    ¬ encodable 32 0 0 0 0 0 := by decide
theorem witness_EncodeClosedForm : encodable 31 15 15 15 15 (-512) ∧ encodable 0 0 0 0 0 511 := by decide
theorem witness_FieldTuplesRoundTrip : encodable 7 0 15 0 15 (-1) := by decide
theorem witness_DecodeEncodeInstr : (Instr.div ⟨never, 15, 0, 15, -512⟩).wf := by decide
theorem witness_EncodeDecodeWord : ∃ i, decode 0x8FC44800 = .ok i := ⟨.add ⟨always, 1, 1, 2, 0⟩, by decide⟩
theorem witness_UnknownOpcodesAreSevenUp :
    6 < ((0x1C000000 : Word).extractLsb' 26 5).toNat ∧ ((0x18000000 : Word).extractLsb' 26 5).toNat ≤ 6 := by decide

/-- The one hypothesis of the four statements, a true mask. -/
theorem witness_AddExecutes_SubExecutes_MulExecutes_HaltExecutes : condTrue always State.reset.flags = true := by decide
theorem witness_MaskedOffOnlyAdvancesPc : condTrue (Instr.load ⟨never, 15, 0, 0, -1⟩).operands.mask State.reset.flags = false := by
  decide

/-- r2 holds 5: a divisor other than zero, and x[2] - 5 is zero. -/
def two : State := State.reset.writeReg 2 5
theorem witness_DivExecutes : condTrue always two.flags = true ∧ two.readReg 2 + wrap 0 ≠ 0 := by decide
theorem witness_DivRoundsTowardZero : (0xFFFFFFFF : Word) ≠ 0 := by decide
theorem witness_DivisionByZeroIsRecoverable :
    (condTrue always two.flags = true ∧ two.readReg 2 + wrap (-5) = 0) ∧
    ∃ s t, step s = .next t ∧ s.flags ≠ .V ∧ t.flags = .V := by
  refine ⟨by decide, vector 0x1BC48FFF .P [(3, 1)] [], _, rfl, by decide, by decide⟩

/-- EA at the last word, at the input port and past the capacity. -/
theorem witness_LoadFromMemory :
    let ea := two.readReg 2 + (two.readReg 0 + wrap 506)
    let ea' := two.readReg 0 + (two.readReg 0 + wrap 0)
    (condTrue always two.flags = true ∧ ea.toNat < two.cfg.memWords ∧ ea ≠ two.cfg.ioInAddr) ∧
    (ea'.toNat < two.cfg.memWords ∧ ea' ≠ two.cfg.ioInAddr) := by decide
theorem witness_LoadFromInputPort :
    let s := two.setInq [42]
    let ea := s.readReg 2 + (s.readReg 0 + wrap 505)
    condTrue always s.flags = true ∧ ea.toNat < s.cfg.memWords ∧ ea = s.cfg.ioInAddr ∧ s.inq = 42 :: [] := by decide
theorem witness_StoreToMemory :
    let s := two.writeReg 3 1023
    let ea := s.readReg 3 + (s.readReg 0 + wrap 0)
    condTrue always s.flags = true ∧ ea.toNat < s.cfg.memWords ∧ ea ≠ s.cfg.ioOutAddr := by decide
theorem witness_StoreToOutputPort :
    let ea := two.readReg 2 + (two.readReg 0 + wrap 506)
    condTrue always two.flags = true ∧ ea.toNat < two.cfg.memWords ∧ ea = two.cfg.ioOutAddr := by decide
theorem witness_AccessOutOfBoundsTakesFault :
    let s := two.writeReg 3 1023
    let ea := s.readReg 3 + (s.readReg 0 + wrap 1)
    condTrue always s.flags = true ∧ s.cfg.memWords ≤ ea.toNat := by decide

/-- A jump to the first address past the capacity: LOAD r15 from a word that holds 1024. -/
def jump : State := vector 0x07FC0007 .Z [] [(7, 1024)]
theorem witness_JumpTargetsFaultAtNextFetch :
    jump.Executes (.load ⟨always, 15, 0, 0, 7⟩) ∧ jumpTarget (.load ⟨always, 15, 0, 0, 7⟩) jump = some 1024 ∧
    jump.cfg.memWords ≤ (1024 : Word).toNat := by decide

/-- The first word of reset memory is HALT/NEVER. -/
theorem witness_StepRunsDecodedInstr :
    State.reset.inBounds State.reset.pc ∧
    decode (State.reset.mem.read State.reset.pc.toNat) = .ok (.halt ⟨never, 0, 0, 0, 0⟩) ∧ State.reset.fsm = .ready ∧
    State.reset.start.fsm = .running := by decide
theorem witness_StepRefinesCycle : State.reset.start.fsm = .running := by decide

/-- LOAD r1 from x[1], at the first address out of bounds. -/
def outOfBounds : State := vector 0x07C44000 .Z [(1, 1024)] []
theorem witness_FsmTransitions :
    State.reset.fsm = .ready ∧ (vector 0x03C00000 .Z [] []).Executes (.halt ⟨always, 0, 0, 0, 0⟩) ∧
    ¬ ((vector 0 .Z [] []).writeReg 15 1024).inBounds 1024 ∧ (vector 0x1C000000 .Z [] []).FetchesUnknown ∧
    outOfBounds.AccessesOutOfBounds ∧ (∃ s t, step s = .next t ∧ s.fsm = .halted) ∧ ∃ s t, step s = .next t ∧ s.fsm = .faulted :=
  ⟨by decide, by decide, by decide, by decide, ⟨⟨always, 1, 1, 0, 0⟩, .inl (by decide), by decide⟩,
    ⟨State.reset.setFsm .halted, _, rfl, by decide⟩, ⟨State.reset.setFsm .faulted, _, rfl, by decide⟩⟩
/-- The last row, every other step: ADD r1,r1,r2. -/
def adding : State := vector 0x0FC44800 .Z [] []
theorem witness_FsmTransitions_other :
    adding.Active ∧ (∃ t, step adding = .next t) ∧ (¬ ∃ o, adding.Executes (.halt o)) ∧
    ¬ (¬ adding.inBounds adding.pc ∨ adding.FetchesUnknown ∨ adding.AccessesOutOfBounds) := by
  have e : decode (adding.mem.read adding.pc.toNat) = .ok (.add ⟨always, 1, 1, 2, 0⟩) := by decide
  have only (i : Instr) (h : adding.Executes i) : i = .add ⟨always, 1, 1, 2, 0⟩ := by
    simpa [e] using h.2.1.2.symm
  refine ⟨by decide, ⟨_, rfl⟩, fun ⟨o, h⟩ => by simpa using only _ h, ?_⟩
  rintro (h | h | ⟨o, h | h, -⟩)
  · exact h (by decide)
  · revert h; decide
  · simpa using only _ h
  · simpa using only _ h
theorem witness_StartChangesOnlyTheFsm : State.reset.fsm = .ready := by decide
theorem witness_FetchReadsAtThePc :
    ((State.reset.writeReg 15 1023).readReg 15).toNat < State.reset.cfg.memWords ∧
    State.reset.cfg.memWords ≤ ((State.reset.start.writeReg 15 1024).readReg 15).toNat ∧
    (State.reset.start.writeReg 15 1024).fsm = .running := by decide
theorem witness_UnknownOpcodeFaults : (vector 0x1C000000 .Z [] []).Active ∧ (vector 0x1C000000 .Z [] []).FetchesUnknown := by
  decide
theorem witness_TerminalStatesStay : (State.reset.setFsm .halted).fsm = .halted ∧ (State.reset.setFsm .faulted).fsm = .faulted := by
  decide
theorem witness_StopsOnlyWhenBlocked : (vector 0x07C401FE .Z [] []).Blocked ∧ ¬ (State.reset.setFsm .halted).Blocked :=
  ⟨⟨⟨always, 1, 0, 0, 510⟩, by decide⟩, fun ⟨_, ⟨h, _⟩, _⟩ => by revert h; decide⟩
theorem witness_MemoryFaultRecords :
    ((State.reset.writeReg 15 1024).Active ∧ ¬ (State.reset.writeReg 15 1024).inBounds (State.reset.writeReg 15 1024).pc) ∧
    (outOfBounds.Executes (.load ⟨always, 1, 1, 0, 0⟩) ∧
      ¬ outOfBounds.inBounds (effectiveAddress ⟨always, 1, 1, 0, 0⟩ outOfBounds)) ∧
    ((vector 0x0BCC4000 .Z [(1, 1024)] []).Executes (.store ⟨always, 3, 1, 0, 0⟩) ∧
      ¬ outOfBounds.inBounds (effectiveAddress ⟨always, 3, 1, 0, 0⟩ (vector 0x0BCC4000 .Z [(1, 1024)] []))) := by decide
theorem witness_FaultsArePrecise : ∃ s t, s.Active ∧ step s = .next t ∧ t.fsm = .faulted :=
  ⟨outOfBounds, _, by decide, rfl, by decide⟩
theorem witness_WriteRegPath :
    (15 : Reg) ≠ 0 ∧ (∀ o, Instr.load ⟨always, 1, 0, 0, 510⟩ ≠ .store o) ∧
    (∃ f, exec (setTarget (.load ⟨always, 1, 0, 0, 510⟩) 1) State.reset = .fault f) ∧
    ∃ t, exec (setTarget (.load ⟨always, 1, 0, 0, 510⟩) 1) (State.reset.setInq [7]) = .next t :=
  ⟨by decide, by simp, ⟨_, rfl⟩, ⟨_, rfl⟩⟩
theorem witness_RegistersAreInterchangeable :
    (Equiv.swap (1 : Reg) 14 0 = 0 ∧ Equiv.swap (1 : Reg) 14 15 = 15) ∧ (4 : Reg) ≠ 15 ∧
    (4 : Reg) ≠ (Instr.store ⟨always, 3, 1, 2, 0⟩).operands.rt ∧ (4 : Reg) ≠ (Instr.store ⟨always, 3, 1, 2, 0⟩).operands.rs1 ∧
    (4 : Reg) ≠ (Instr.store ⟨always, 3, 1, 2, 0⟩).operands.rs2 := by decide
theorem witness_MemWriteChangesOneWord :
    (1023 : Word).toNat < State.reset.cfg.memWords ∧ State.reset.cfg.memWords ≤ (1024 : Word).toNat := by decide

/-- LOAD r1 from the input port; STORE r3 to the output port; STORE r3 to the next word. -/
def input : State := (vector 0x07C401FE .Z [] []).setInq [42]
def output : State := vector 0x0BCC01FF .Z [(3, 42)] []
def overwrite : State := vector 0x0BCC0011 .Z [(3, 0x03C00000)] []
theorem witness_SideEffects :
    (input.Executes (.load ⟨always, 1, 0, 0, 510⟩) ∧ input.inBounds (effectiveAddress ⟨always, 1, 0, 0, 510⟩ input) ∧
      effectiveAddress ⟨always, 1, 0, 0, 510⟩ input = input.cfg.ioInAddr ∧ input.inq = 42 :: []) ∧
    (output.Executes (.store ⟨always, 3, 0, 0, 511⟩) ∧ output.inBounds (effectiveAddress ⟨always, 3, 0, 0, 511⟩ output) ∧
      effectiveAddress ⟨always, 3, 0, 0, 511⟩ output = output.cfg.ioOutAddr) := by decide
theorem witness_StoreIsSeenByLaterFetches :
    (overwrite.Executes (.store ⟨always, 3, 0, 0, 17⟩) ∧
      overwrite.inBounds (effectiveAddress ⟨always, 3, 0, 0, 17⟩ overwrite) ∧
      effectiveAddress ⟨always, 3, 0, 0, 17⟩ overwrite ≠ overwrite.cfg.ioOutAddr) ∧
    ∃ t u, step overwrite = .next t ∧ StepsSparing (effectiveAddress ⟨always, 3, 0, 0, 17⟩ overwrite) t u ∧
      u.pc = effectiveAddress ⟨always, 3, 0, 0, 17⟩ overwrite :=
  ⟨by decide, _, _, rfl, .refl _, by decide⟩

theorem reset_inv : State.reset.Inv :=
  ⟨by decide, by decide, by decide, by decide, by decide⟩
theorem witness_InvHoldsAtReset : Config.vectors.wf ∧ (Config.mk 2 5 0 1).wf ∧ (Config.mk (2 ^ 31) 0 0 0x7FFFFFFF).wf := by
  decide
theorem witness_InvIsKeptByEveryStep : ∃ s t, State.Inv s ∧ step s = .next t := ⟨State.reset, _, reset_inv, rfl⟩
theorem witness_ParametersNeverChange : ∃ s t, step s = .next t := ⟨State.reset, _, rfl⟩
theorem witness_LoadProgramCopiesWords :
    (State.reset.start.fsm ≠ .ready) ∧ (State.reset.fsm = .ready ∧ State.reset.cfg.memWords < 1023 + [1, 2].length) ∧
    1022 + [1, 2].length ≤ State.reset.cfg.memWords := by decide
theorem witness_RunIteratesStep :
    (∃ t, State.reset.hostRun 2 = .returned (t, 2)) ∧ (∃ t, (vector 0x03C00000 .Z [] []).hostRun 2 = .returned (t, 1)) ∧
    ∃ u, (vector 0x07C401FE .Z [] []).hostRun 2 = .blocked u :=
  ⟨⟨_, rfl⟩, ⟨_, rfl⟩, ⟨_, rfl⟩⟩
theorem witness_HostStepReturnsOrBlocks : ∃ u, (vector 0x07C401FE .Z [] []).hostStep = .blocked u := ⟨_, rfl⟩
theorem witness_PlacedWordRuns : State.reset.Active ∧ State.reset.inBounds State.reset.pc := by decide

end Sys2Proof.Tests
end

section
/-! PROOFS. Registers 1 to 14 are interchangeable and none is used implicitly (10_state.md R23). Both halves are one fact:
a rearrangement of the register file that carries the registers an instruction names, and the pc, to those its renaming
names commutes with `exec`. Renaming by a permutation is such a rearrangement, and so is a write to a register the
instruction does not name, with nothing renamed. -/

namespace Sys2Proof.Machine

/-! ## Rearranging the register file -/

/-- Apply `g` to the register file and to nothing else. -/
def State.onRegs (g : Vector Word 16 → Vector Word 16) (s : State) : State := { s with regs := g s.regs }

/-- A LOAD access with the state in its answer changed by `f`. -/
def LoadResult.mapState (f : State → State) : LoadResult → LoadResult
  | .loaded v s => .loaded v (f s)
  | .bounds e => .bounds e
  | .blocked => .blocked

/-- `g` carries register `i` to register `j`: what was read or written at `i` is read or written at `j`. -/
structure Carries (g : Vector Word 16 → Vector Word 16) (i j : Reg) : Prop where
  read : ∀ s : State, (s.onRegs g).readReg j = s.readReg i
  write : ∀ (s : State) (v : Word), (s.writeReg i v).onRegs g = (s.onRegs g).writeReg j v

/-- `g` carries each register that `o` names to its renaming by `p`, and keeps the pc. -/
structure CarriesOperands (g : Vector Word 16 → Vector Word 16) (p : Equiv.Perm Reg) (o : Operands) : Prop where
  rt : Carries g o.rt (p o.rt)
  rs1 : Carries g o.rs1 (p o.rs1)
  rs2 : Carries g o.rs2 (p o.rs2)
  pc : Carries g 15 15
  pc_fixed : p 15 = 15

section Rearranged
variable {g : Vector Word 16 → Vector Word 16} {p : Equiv.Perm Reg} {o : Operands}

/-! ## The load-store unit looks at no register -/

theorem State.onRegs_inq (s : State) : (s.onRegs g).inq = s.inq := rfl

theorem State.memRead_onRegs (s : State) (a : Word) (kind : AccessKind) (pc : Word) :
    (s.onRegs g).memRead a kind pc = s.memRead a kind pc := rfl

theorem State.memWrite_onRegs (s : State) (a v pc : Word) :
    (s.onRegs g).memWrite a v pc = (s.memWrite a v pc).map (State.onRegs g) := by
  rw [State.memWrite, State.memWrite, apply_ite (Except.map (State.onRegs g))]
  rfl

theorem loadUnit_onRegs (s : State) (ea pc : Word) :
    loadUnit (s.onRegs g) ea pc = (loadUnit s ea pc).mapState (State.onRegs g) := by
  have hin : inRead (s.onRegs g) = (inRead s).mapState (State.onRegs g) := by
    rw [inRead, inRead, State.onRegs_inq]
    cases s.inq <;> rfl
  have hcell : cellRead (s.onRegs g) ea pc = (cellRead s ea pc).mapState (State.onRegs g) := by
    rw [cellRead, cellRead, State.memRead_onRegs]
    cases s.memRead ea .load pc <;> rfl
  unfold loadUnit
  rw [hin, hcell, apply_ite (LoadResult.mapState (State.onRegs g))]
  rfl

theorem storeUnit_onRegs (s : State) (ea v pc : Word) :
    storeUnit (s.onRegs g) ea v pc = (storeUnit s ea v pc).map (State.onRegs g) := by
  rw [storeUnit, storeUnit, State.memWrite_onRegs, apply_ite (Except.map (State.onRegs g))]
  rfl

/-! ## Operands and retiring follow the registers -/

theorem Carries.pc_eq (h : Carries g 15 15) (s : State) : (s.onRegs g).pc = s.pc := h.read s

theorem Carries.sequencePc (h : Carries g 15 15) (s : State) (a : Word) (b : Bool) :
    (s.sequencePc a b).onRegs g = (s.onRegs g).sequencePc a b := by
  cases b with
  | false => exact h.write s (a + 1)
  | true => rfl

theorem Carries.advancePc (h : Carries g 15 15) (s : State) : (s.onRegs g).advancePc = s.advancePc.onRegs g := by
  rw [State.advancePc, State.advancePc, h.sequencePc, h.pc_eq]

theorem Carries.retireNoWrite (h : Carries g 15 15) (s : State) (f : CondCode) :
    (s.onRegs g).retireNoWrite f = (s.retireNoWrite f).onRegs g := by
  rw [State.retireNoWrite, State.retireNoWrite, h.sequencePc, h.pc_eq]
  rfl

namespace CarriesOperands
variable (h : CarriesOperands g p o) (s : State)
include h

theorem operand1_eq : operand1 (renameOperands p o) (s.onRegs g) = operand1 o s := h.rs1.read s

theorem operand2_eq : operand2 (renameOperands p o) (s.onRegs g) = operand2 o s :=
  congrArg (· + wrap o.disp) (h.rs2.read s)

theorem effectiveAddress_eq : effectiveAddress (renameOperands p o) (s.onRegs g) = effectiveAddress o s :=
  congrArg₂ (· + ·) (h.operand1_eq s) (h.operand2_eq s)

/-- The renamed target is the pc exactly when the target is. -/
theorem pcWrittenBy_eq : pcWrittenBy (p o.rt) = pcWrittenBy o.rt := by
  have hiff : p o.rt = 15 ↔ o.rt = 15 := by rw [← p.injective.eq_iff (a := o.rt), h.pc_fixed]
  simp [pcWrittenBy, hiff]

theorem retire (v : Word) (f : CondCode) : (s.onRegs g).retire (p o.rt) v f = (s.retire o.rt v f).onRegs g := by
  have hw : ((s.onRegs g).writeReg (p o.rt) v).setFlags f = ((s.writeReg o.rt v).setFlags f).onRegs g := by
    rw [← h.rt.write]
    rfl
  rw [State.retire, State.retire, h.pc.sequencePc, hw, h.pc.pc_eq, h.pcWrittenBy_eq]

theorem retireAlu (r : AluResult) : (s.onRegs g).retireAlu (p o.rt) r = (s.retireAlu o.rt r).onRegs g := by
  cases r with
  | value r => exact h.retire s r (signFlag r)
  | divByZero => exact h.pc.retireNoWrite s .V

/-! ## The meanings commute with the rearrangement -/

theorem predicated_eq (e : Result) :
    predicated (renameOperands p o) (s.onRegs g) (mapNext (State.onRegs g) e) =
      mapNext (State.onRegs g) (predicated o s e) := by
  have hadv : mapNext (State.onRegs g) (.next s.advancePc) = .next (s.onRegs g).advancePc :=
    congrArg _ (h.pc.advancePc s).symm
  rw [predicated, predicated, apply_ite (mapNext (State.onRegs g)), hadv]
  rfl

theorem aluInstr_eq (op : AluOp) :
    aluInstr op (renameOperands p o) (s.onRegs g) = mapNext (State.onRegs g) (aluInstr op o s) := by
  rw [aluInstr, aluInstr, ← h.predicated_eq, h.operand1_eq, h.operand2_eq]
  exact congrArg (fun t => predicated _ _ (.next t)) (h.retireAlu s _)

theorem loadEffect_eq (ea : Word) :
    loadEffect (p o.rt) ea (s.onRegs g) = mapNext (State.onRegs g) (loadEffect o.rt ea s) := by
  rw [loadEffect, loadEffect, h.pc.pc_eq, loadUnit_onRegs]
  cases loadUnit s ea s.pc with
  | loaded v t => exact congrArg _ (h.retire t v (signFlag ea))
  | bounds e => rfl
  | blocked => rfl

theorem storeEffect_eq (ea : Word) :
    storeEffect (p o.rt) ea (s.onRegs g) = mapNext (State.onRegs g) (storeEffect o.rt ea s) := by
  rw [storeEffect, storeEffect, h.pc.pc_eq, h.rt.read, storeUnit_onRegs]
  cases storeUnit s ea (s.readReg o.rt) s.pc with
  | ok t => exact congrArg _ (h.pc.retireNoWrite t (signFlag ea))
  | error e => rfl

theorem execHalt_eq : execHalt (renameOperands p o) (s.onRegs g) = mapNext (State.onRegs g) (execHalt o s) := by
  rw [execHalt, execHalt, ← h.predicated_eq]
  exact congrArg (fun t => predicated _ _ (.next t)) (h.pc.retireNoWrite (s.setFsm .halted) s.flags)

theorem execLoad_eq : execLoad (renameOperands p o) (s.onRegs g) = mapNext (State.onRegs g) (execLoad o s) := by
  rw [execLoad, execLoad, ← h.predicated_eq, h.effectiveAddress_eq, ← h.loadEffect_eq]
  rfl

theorem execStore_eq : execStore (renameOperands p o) (s.onRegs g) = mapNext (State.onRegs g) (execStore o s) := by
  rw [execStore, execStore, ← h.predicated_eq, h.effectiveAddress_eq, ← h.storeEffect_eq]
  rfl

end CarriesOperands

end Rearranged

/-- A rearrangement that carries the registers an instruction names, and the pc, commutes with running it. -/
theorem exec_renameInstr_onRegs {g : Vector Word 16 → Vector Word 16} {p : Equiv.Perm Reg} {i : Instr}
    (h : CarriesOperands g p i.operands) (s : State) :
    exec (renameInstr p i) (s.onRegs g) = mapNext (State.onRegs g) (exec i s) := by
  cases i with
  | halt o => exact h.execHalt_eq s
  | load o => exact h.execLoad_eq s
  | store o => exact h.execStore_eq s
  | add o => exact h.aluInstr_eq s .add
  | sub o => exact h.aluInstr_eq s .sub
  | mul o => exact h.aluInstr_eq s .mul
  | div o => exact h.aluInstr_eq s .div

/-! ## Renaming is such a rearrangement -/

/-- The register file with the value of register `i` held by register `p i`. -/
def renameRegs (p : Equiv.Perm Reg) (r : Vector Word 16) : Vector Word 16 := Vector.ofFn fun i : Fin 16 => r[p.symm i]

theorem renameState_eq_onRegs (p : Equiv.Perm Reg) : renameState p = State.onRegs (renameRegs p) := rfl

theorem getElem_renameRegs (p : Equiv.Perm Reg) (r : Vector Word 16) (i : Reg) : (renameRegs p r)[i] = r[p.symm i] := by
  simp [renameRegs]

theorem renameRegs_set (p : Equiv.Perm Reg) (r : Vector Word 16) (i : Reg) (v : Word) :
    renameRegs p (r.set i v) = (renameRegs p r).set (p i) v := by
  ext j hj
  have hat : (i : Nat) = p.symm ⟨j, hj⟩ ↔ (p i : Nat) = j := by
    rw [← Fin.ext_iff, Equiv.eq_symm_apply, Fin.ext_iff]
  simp [renameRegs, Vector.getElem_set, hat]

theorem carries_renameRegs {p : Equiv.Perm Reg} (h0 : p 0 = 0) (i : Reg) : Carries (renameRegs p) i (p i) := by
  have hz : p i = 0 ↔ i = 0 := by rw [← p.injective.eq_iff (a := i), h0]
  constructor
  · intro s
    simp only [State.readReg, State.onRegs, hz, getElem_renameRegs, Equiv.symm_apply_apply]
  · intro s v
    by_cases hi : i = 0
    · simp [State.writeReg, hi, h0]
    · simp [State.writeReg, State.onRegs, hi, hz, renameRegs_set]

/-- Renaming every register, in the instruction and the state, renames the outcome. -/
theorem exec_renameInstr_renameState {p : Equiv.Perm Reg} (h0 : p 0 = 0) (h15 : p 15 = 15) (i : Instr) (s : State) :
    exec (renameInstr p i) (renameState p s) = mapNext (renameState p) (exec i s) := by
  have hall := carries_renameRegs h0
  have hpc : Carries (renameRegs p) 15 15 := by simpa only [h15] using hall 15
  rw [renameState_eq_onRegs]
  exact exec_renameInstr_onRegs ⟨hall _, hall _, hall _, hpc, h15⟩ s

/-! ## A write to an unnamed register is such a rearrangement -/

/-- The register file after `WriteReg(k, v)`. -/
def writeRegs (k : Reg) (v : Word) (r : Vector Word 16) : Vector Word 16 := if k = 0 then r else r.set k v

theorem writeReg_eq_onRegs (k : Reg) (v : Word) : (fun s : State => s.writeReg k v) = State.onRegs (writeRegs k v) := by
  funext s
  unfold State.writeReg State.onRegs writeRegs
  split <;> rfl

theorem State.writeReg_comm {i k : Reg} (hne : k ≠ i) (s : State) (v w : Word) :
    (s.writeReg i v).writeReg k w = (s.writeReg k w).writeReg i v := by
  have hval : (i : Nat) ≠ k := fun e => hne (Fin.ext e.symm)
  unfold State.writeReg
  by_cases hi : i = 0 <;> by_cases hk : k = 0 <;> simp [hi, hk, Vector.set_comm _ _ hval]

theorem carries_writeRegs {i k : Reg} (hne : k ≠ i) (w : Word) : Carries (writeRegs k w) i i := by
  have hw (s : State) : s.onRegs (writeRegs k w) = s.writeReg k w := (congrFun (writeReg_eq_onRegs k w) s).symm
  constructor
  · intro s
    simp [hw, State.readReg_writeReg, Ne.symm hne]
  · intro s v
    rw [hw, hw, State.writeReg_comm hne]

theorem renameInstr_refl (i : Instr) : renameInstr (Equiv.refl Reg) i = i := by
  cases i <;> rfl

/-- A write to a register other than the pc that no field names goes through an instruction unchanged. -/
theorem exec_writeReg_of_unnamed {i : Instr} {k : Reg} (hpc : k ≠ 15) (hrt : k ≠ i.operands.rt)
    (hrs1 : k ≠ i.operands.rs1) (hrs2 : k ≠ i.operands.rs2) (s : State) (v : Word) :
    exec i (s.writeReg k v) = mapNext (fun t => t.writeReg k v) (exec i s) := by
  have h : CarriesOperands (writeRegs k v) (Equiv.refl Reg) i.operands :=
    ⟨carries_writeRegs hrt v, carries_writeRegs hrs1 v, carries_writeRegs hrs2 v, carries_writeRegs hpc v, rfl⟩
  have hexec := exec_renameInstr_onRegs h s
  rwa [renameInstr_refl, ← writeReg_eq_onRegs] at hexec

/-- Settles O40: both halves follow from `exec_renameInstr_onRegs`. -/
theorem registersAreInterchangeable : Obligations.RegistersAreInterchangeable :=
  ⟨fun _ i s h0 h15 => exec_renameInstr_renameState h0 h15 i s,
    fun _ s _ v hpc hrt hrs1 hrs2 => exec_writeReg_of_unnamed hpc hrt hrs1 hrs2 s v⟩

end Sys2Proof.Machine
end

section
/-! PROOFS. What a step does to memory and the two streams (20_memory.md R42, R51, R55). `step_next_cases` says once how a
step can go on, `dataEffect_of_step` what that does to data; the side effects of R51 and the persistence of a stored word
(R55) are read off it. -/

namespace Sys2Proof.Machine

/-! ## The write primitive (R42) -/

/-- Settles O42: the two answers of `memWrite`, and read after write. -/
theorem memWriteChangesOneWord : Obligations.MemWriteChangesOneWord := by
  intro s a v pc
  constructor
  · intro hb
    exact ⟨_, State.memWrite_ok hb v pc, Memory.read_write_same .., fun b hne => Memory.read_write_ne _ v hne, rfl⟩
  · intro hout
    exact State.memWrite_error (Nat.not_lt.mpr hout) v pc

/-! ## How a step goes on -/

/-- A step that goes on is one of an ended state, takes a fault before anything is executed, or runs the instruction
fetched. -/
theorem step_next_cases {s t : State} (h : step s = .next t) :
    t = s ∨ (∃ e, t = s.start.takeFault e) ∨ ∃ i, s.Active ∧ s.Fetches i ∧ ExecTo s.start i t := by
  by_cases ha : s.Active
  · obtain ⟨_, hs⟩ | ⟨_, hs⟩ | ⟨i, hf, hs⟩ := step_cases ha
    · exact .inr (.inl ⟨_, Host.Outcome.next.inj (h.symm.trans hs)⟩)
    · exact .inr (.inl ⟨_, Host.Outcome.next.inj (h.symm.trans hs)⟩)
    · exact .inr (.inr ⟨i, ha, hf, exec_next (hs.symm.trans h)⟩)
  · exact .inl (Host.Outcome.next.inj (h.symm.trans (step_terminal (State.ended_of_not_active ha))))

theorem ExecTo.cfg_eq {s t : State} {i : Instr} (h : ExecTo s i t) : t.cfg = s.cfg := by
  cases h <;> simp

theorem step_keeps_cfg {s t : State} (h : step s = .next t) : t.cfg = s.cfg := by
  obtain rfl | ⟨e, rfl⟩ | ⟨i, _, _, hx⟩ := step_next_cases h
  · rfl
  · simp
  · simpa using hx.cfg_eq

/-! ## What a step does to memory and the streams -/

/-- The changes of memory and the streams that a step from `s` to `t` can make: none, one input value taken, one output
value added, or one word stored. -/
inductive DataEffect (s t : State) : Prop where
  | none : t.mem = s.mem → SameStreams s t → DataEffect s t
  | input (o : Operands) (v : Word) : s.Executes (.load o) → effectiveAddress o s = s.cfg.ioInAddr →
      s.inq = v :: t.inq → t.outq = s.outq → t.mem = s.mem → DataEffect s t
  | output (o : Operands) : s.Executes (.store o) → effectiveAddress o s = s.cfg.ioOutAddr →
      t.outq = s.outq ++ [s.readReg o.rt] → t.inq = s.inq → t.mem = s.mem → DataEffect s t
  | store (o : Operands) : s.Executes (.store o) → s.inBounds (effectiveAddress o s) →
      effectiveAddress o s ≠ s.cfg.ioOutAddr →
      t.mem = s.mem.write (effectiveAddress o s).toNat (s.readReg o.rt) → SameStreams s t → DataEffect s t

/-- An instruction run from the started state: only the two ports and a store into a word touch data. -/
theorem dataEffect_of_execTo {s t : State} {i : Instr} (ha : s.Active) (hf : s.Fetches i) (h : ExecTo s.start i t) :
    DataEffect s t := by
  cases h with
  | loadPort v q hc hb hi hq =>
    simp only [effectiveAddress_start, State.start_flags, State.start_cfg, State.start_inq] at hc hi hq
    exact .input _ v ⟨ha, hf, hc⟩ hi (by simpa using hq) (by simp) (by simp)
  | storePort hc hb ho =>
    simp only [effectiveAddress_start, State.start_flags, State.start_cfg] at hc ho
    exact .output _ ⟨ha, hf, hc⟩ ho (by simp) (by simp) (by simp)
  | storeCell hc hb ho =>
    simp only [effectiveAddress_start, State.start_flags, State.start_cfg, State.inBounds] at hc hb ho
    exact .store _ ⟨ha, hf, hc⟩ hb ho (by simp) (by simp [SameStreams])
  | _ => exact .none (by simp) (by simp [SameStreams])

theorem dataEffect_of_step {s t : State} (h : step s = .next t) : DataEffect s t := by
  obtain rfl | ⟨e, rfl⟩ | ⟨i, ha, hf, hx⟩ := step_next_cases h
  · exact .none rfl ⟨rfl, rfl⟩
  · exact .none (by simp) (by simp [SameStreams])
  · exact dataEffect_of_execTo ha hf hx

/-! ## An executed access in bounds -/

theorem loadEffect_port {s : State} {ea v : Word} {q : List Word} (hb : s.inBounds ea) (hi : ea = s.cfg.ioInAddr)
    (hq : s.inq = v :: q) (rt : Reg) : loadEffect rt ea s = .next ((s.setInq q).retire rt v (signFlag ea)) := by
  rw [loadEffect, loadUnit, if_pos ⟨hb, hi⟩, inRead, hq]

theorem storeEffect_port {s : State} {ea : Word} (hb : s.inBounds ea) (ho : ea = s.cfg.ioOutAddr) (rt : Reg) :
    storeEffect rt ea s = .next ((s.emit (s.readReg rt)).retireNoWrite (signFlag ea)) := by
  rw [storeEffect, storeUnit, if_pos ⟨hb, ho⟩]

theorem storeEffect_cell {s : State} {ea : Word} (hb : s.inBounds ea) (ho : ea ≠ s.cfg.ioOutAddr) (rt : Reg) :
    storeEffect rt ea s =
      .next ((s.setMem (s.mem.write ea.toNat (s.readReg rt))).retireNoWrite (signFlag ea)) := by
  rw [storeEffect, storeUnit, if_neg (fun h => ho h.2), State.memWrite_ok hb]

theorem State.inBounds_start (s : State) (a : Word) : s.start.inBounds a ↔ s.inBounds a := by
  rw [State.inBounds, State.start_cfg]

section Access
variable {s : State} {o : Operands}

theorem step_load (hx : s.Executes (.load o)) : step s = loadEffect o.rt (effectiveAddress o s) s.start := by
  have ⟨_, _, hc⟩ := hx
  rw [step_of_executes hx, exec_load (by rwa [State.start_flags]), effectiveAddress_start]

theorem step_store (hx : s.Executes (.store o)) : step s = storeEffect o.rt (effectiveAddress o s) s.start := by
  have ⟨_, _, hc⟩ := hx
  rw [step_of_executes hx, exec_store (by rwa [State.start_flags]), effectiveAddress_start]

/-- A LOAD from the input port takes the first input value (R48). -/
theorem step_load_port {v : Word} {q : List Word} (hx : s.Executes (.load o)) (hb : s.inBounds (effectiveAddress o s))
    (hi : effectiveAddress o s = s.cfg.ioInAddr) (hq : s.inq = v :: q) : ∃ t, step s = .next t ∧ t.inq = q := by
  refine ⟨_, (step_load hx).trans (loadEffect_port (v := v) (q := q) ?_ ?_ ?_ _), ?_⟩
  · exact (s.inBounds_start _).mpr hb
  · rwa [State.start_cfg]
  · rwa [State.start_inq]
  · simp

/-- A STORE to the output port adds x[rt] to the output stream (R49). -/
theorem step_store_port (hx : s.Executes (.store o)) (hb : s.inBounds (effectiveAddress o s))
    (ho : effectiveAddress o s = s.cfg.ioOutAddr) : ∃ t, step s = .next t ∧ t.outq = s.outq ++ [s.readReg o.rt] := by
  refine ⟨_, (step_store hx).trans (storeEffect_port ?_ ?_ _), ?_⟩
  · exact (s.inBounds_start _).mpr hb
  · rwa [State.start_cfg]
  · simp

/-- Any other STORE writes x[rt] to its word (R42, R133). -/
theorem step_store_cell (hx : s.Executes (.store o)) (hb : s.inBounds (effectiveAddress o s))
    (ho : effectiveAddress o s ≠ s.cfg.ioOutAddr) :
    ∃ t, step s = .next t ∧ t.mem = s.mem.write (effectiveAddress o s).toNat (s.readReg o.rt) := by
  refine ⟨_, (step_store hx).trans (storeEffect_cell ?_ ?_ _), ?_⟩
  · exact (s.inBounds_start _).mpr hb
  · rwa [State.start_cfg]
  · simp

end Access

/-! ## Side effects (R51) -/

/-- Settles O43: every clause is read off the four data effects of a step, and the ports' own steps give the converse. -/
theorem sideEffects : Obligations.SideEffects := by
  refine ⟨fun s t h => ?_, fun s o v q hx hb hi hq => step_load_port hx hb hi hq,
    fun s o hx hb ho => step_store_port hx hb ho⟩
  cases dataEffect_of_step h with
  | none hm hs =>
    obtain ⟨hin, hout⟩ := hs
    exact ⟨.inl hin, .inl hout, .inl fun a => by rw [hm]⟩
  | input o v hx hi hin hout hm => exact ⟨.inr ⟨o, v, hx, hi, hin⟩, .inl hout, .inl fun a => by rw [hm]⟩
  | output o hx ho hout hin hm => exact ⟨.inl hin, .inr ⟨o, hx, ho, hout⟩, .inl fun a => by rw [hm]⟩
  | store o hx _ ho hm hs =>
    obtain ⟨hin, hout⟩ := hs
    exact ⟨.inl hin, .inl hout, .inr ⟨o, hx, ho, fun a => by rw [hm, Memory.read_write]⟩⟩

/-! ## A stored word stays until the next store into it (R55) -/

/-- A step that does not store into the word `a` leaves it as it was. -/
theorem step_keeps_word {s t : State} {a : Word} (hstep : step s = .next t) (hspare : ¬ s.StoresTo a) :
    t.mem.read a.toNat = s.mem.read a.toNat := by
  cases dataEffect_of_step hstep with
  | none hm _ => rw [hm]
  | input _ _ _ _ _ _ hm => rw [hm]
  | output _ _ _ _ _ hm => rw [hm]
  | store o hx hb ho hm _ =>
    have hne : a ≠ effectiveAddress o s := by
      rintro rfl
      exact hspare ⟨o, hx, rfl, hb, ho⟩
    rw [hm, Memory.read_write_ne _ _ (mt BitVec.eq_of_toNat_eq hne)]

namespace StepsSparing
variable {a : Word} {s t : State}

theorem keeps_word (h : StepsSparing a s t) : t.mem.read a.toNat = s.mem.read a.toNat := by
  induction h with
  | refl => rfl
  | tail _ hspare hstep ih => exact (step_keeps_word hstep hspare).trans ih

theorem keeps_cfg (h : StepsSparing a s t) : t.cfg = s.cfg := by
  induction h with
  | refl => rfl
  | tail _ _ hstep ih => exact (step_keeps_cfg hstep).trans ih

end StepsSparing

theorem State.fetch_ok {s : State} (h : s.inBounds s.pc) : s.fetch = .ok (s.mem.read s.pc.toNat) :=
  State.memRead_ok h .fetch s.pc

/-- Settles O44: the STORE's own step puts the word in place, the spared steps keep it and the capacity, and a fetch reads
memory. -/
theorem storeIsSeenByLaterFetches : Obligations.StoreIsSeenByLaterFetches := by
  intro s o hx hb ho
  obtain ⟨t, hstep, hmem⟩ := step_store_cell hx hb ho
  refine ⟨t, hstep, fun u hu hpc => ?_⟩
  have hcfg : u.cfg = s.cfg := hu.keeps_cfg.trans (step_keeps_cfg hstep)
  have hword : u.mem.read (effectiveAddress o s).toNat = s.readReg o.rt := by
    rw [hu.keeps_word, hmem, Memory.read_write_same]
  have hin : u.inBounds u.pc := by rwa [State.inBounds, hcfg, hpc]
  rw [State.fetch_ok hin, hpc, hword]

end Sys2Proof.Machine
end

section
/-! PROOFS. Field extraction and the displacement (30_encoding.md R60, R64). Both rest on one fact: the codec's arithmetic
reading of a field is the natural number, or the integer, that the bit vector `w.extractLsb' offset width` stands for. -/

namespace Sys2Proof

/-! ## A field is a slice of the word -/

theorem toNat_extractLsb'_eq_fieldUnsigned (w : Word) (width offset : Nat) :
    (w.extractLsb' offset width).toNat = fieldUnsigned w width offset := by
  simp [fieldUnsigned, Nat.shiftRight_eq_div_pow]

/-- Both readings subtract `2 ^ width` exactly from half the field's range on. -/
theorem toInt_extractLsb'_eq_fieldSigned (w : Word) (width offset : Nat) :
    (w.extractLsb' offset width).toInt = fieldSigned w width offset := by
  rw [BitVec.toInt_eq_toNat_cond, toNat_extractLsb'_eq_fieldUnsigned, fieldSigned]
  cases width with
  | zero => simp [fieldUnsigned, Nat.mod_one]
  | succ k =>
    have hhalf (n : Nat) : 2 * n < 2 ^ (k + 1) ↔ ¬ 2 ^ k ≤ n := by omega
    simp only [hhalf, ite_not, Nat.add_sub_cancel, Nat.cast_pow, Nat.cast_ofNat]

theorem fieldUnsigned_lt (w : Word) (width offset : Nat) : fieldUnsigned w width offset < 2 ^ width :=
  Nat.mod_lt _ (Nat.two_pow_pos width)

theorem testBit_fieldUnsigned (w : Word) {width i : Nat} (offset : Nat) (h : i < width) :
    (fieldUnsigned w width offset).testBit i = w.getLsbD (offset + i) := by
  rw [← toNat_extractLsb'_eq_fieldUnsigned, BitVec.testBit_toNat, BitVec.getLsbD_extractLsb']
  simp [h]

theorem fieldSigned_eq_or (w : Word) (width offset : Nat) :
    fieldSigned w width offset = fieldUnsigned w width offset ∨
      fieldSigned w width offset = (fieldUnsigned w width offset : Int) - 2 ^ width := by
  rw [fieldSigned]
  split
  · exact .inr rfl
  · exact .inl rfl

theorem le_fieldSigned (w : Word) (width offset : Nat) : -(2 ^ (width - 1) : Int) ≤ fieldSigned w width offset := by
  rw [← toInt_extractLsb'_eq_fieldSigned]
  exact BitVec.le_toInt _

theorem fieldSigned_lt (w : Word) (width offset : Nat) : fieldSigned w width offset < 2 ^ (width - 1) := by
  rw [← toInt_extractLsb'_eq_fieldSigned]
  exact BitVec.toInt_lt

/-! ## The checked primitive (R60, R71) -/

theorem extractField_unsigned {width offset : Nat} (h : descriptorOk width offset) (w : Word) :
    extractField w width offset false = .ok (fieldUnsigned w width offset : Int) := if_pos h

theorem extractField_signed {width offset : Nat} (h : descriptorOk width offset) (w : Word) :
    extractField w width offset true = .ok (fieldSigned w width offset) := if_pos h

theorem extractField_contract {width offset : Nat} (h : ¬ descriptorOk width offset) (w : Word) (signed : Bool) :
    extractField w width offset signed = .error .contract := if_neg h

/-- Settles O2: the two readings of a valid descriptor are those of the slice; past bit 31 the descriptor fails. -/
theorem extractReadsItsField : Obligations.ExtractReadsItsField := by
  intro w width offset
  constructor
  · intro hwidth hend
    have hok : descriptorOk width offset := ⟨hwidth, hend⟩
    exact ⟨_, _, extractField_unsigned hok w, extractField_signed hok w, fieldUnsigned_lt w width offset,
      fun i hi => testBit_fieldUnsigned w offset hi, fieldSigned_eq_or w width offset, le_fieldSigned w width offset,
      fieldSigned_lt w width offset⟩
  · intro hpast signed
    exact extractField_contract (fun hok => Nat.not_le.mpr hpast hok.2) w signed

/-! ## The displacement (R64) -/

theorem operandFields_wf (w : Word) : (operandFields w).wf :=
  ⟨le_fieldSigned w 10 0, Int.le_of_lt_add_one (fieldSigned_lt w 10 0)⟩

/-- `wrap` of a field's signed value is its sign extension: both are the word of one integer. -/
theorem wrap_fieldSigned (w : Word) (width offset : Nat) :
    wrap (fieldSigned w width offset) = (w.extractLsb' offset width).signExtend 32 := by
  rw [← toInt_extractLsb'_eq_fieldSigned, wrap, BitVec.signExtend]

theorem wrap_disp_operandFields (w : Word) : wrap (operandFields w).disp = (w.extractLsb' 0 10).signExtend 32 :=
  wrap_fieldSigned w 10 0

/-- Settles O4: the range and the wrap of the signed field, which operand 2 adds as it is; the examples are evaluated. -/
theorem displacementIsSignExtended : Obligations.DisplacementIsSignExtended := by
  refine ⟨fun w => ?_, by decide, by decide, by decide, by decide⟩
  obtain ⟨hlow, hhigh⟩ := operandFields_wf w
  exact ⟨hlow, hhigh, wrap_disp_operandFields w,
    fun s => congrArg (s.readReg (operandFields w).rs2 + ·) (wrap_disp_operandFields w)⟩

end Sys2Proof
end

section
/-! PROOFS. The write path of a register and the FSM (40_cycle.md R91, R92, R98, R103). That a discarded write to r0 stops
no other effect is one equation: `exec` with two different targets gives equal outcomes once the register file is
forgotten. That no register is written then is the frame of `ExecTo`. -/

namespace Sys2Proof.Machine

/-! ## Forgetting the register file -/

/-- Put `regs` in the place of the register file, whatever it was. -/
abbrev State.withRegs (regs : Vector Word 16) : State → State := State.onRegs fun _ => regs

section Forget
variable (regs : Vector Word 16)

theorem State.withRegs_writeReg (s : State) (i : Reg) (v : Word) :
    (s.writeReg i v).withRegs regs = s.withRegs regs := by
  unfold State.writeReg
  split <;> rfl

theorem State.withRegs_sequencePc (s : State) (a : Word) (b : Bool) :
    (s.sequencePc a b).withRegs regs = s.withRegs regs := by
  cases b with
  | false => exact State.withRegs_writeReg regs s 15 (a + 1)
  | true => rfl

theorem State.withRegs_retire (s : State) (r r' : Reg) (v : Word) (f : CondCode) :
    (s.retire r v f).withRegs regs = (s.retire r' v f).withRegs regs := by
  have hw (i : Reg) : ((s.writeReg i v).setFlags f).withRegs regs = (s.withRegs regs).setFlags f :=
    congrArg (State.setFlags · f) (State.withRegs_writeReg regs s i v)
  rw [State.retire, State.retire, State.withRegs_sequencePc, State.withRegs_sequencePc, hw, hw]

theorem State.withRegs_retireAlu (s : State) (r r' : Reg) (a : AluResult) :
    (s.retireAlu r a).withRegs regs = (s.retireAlu r' a).withRegs regs := by
  cases a with
  | value v => exact State.withRegs_retire regs s r r' v (signFlag v)
  | divByZero => rfl

/-! ## The target matters to the registers alone -/

theorem loadEffect_withRegs (s : State) (ea : Word) (r r' : Reg) :
    mapNext (State.withRegs regs) (loadEffect r ea s) = mapNext (State.withRegs regs) (loadEffect r' ea s) := by
  unfold loadEffect
  cases loadUnit s ea s.pc with
  | loaded v t => exact congrArg Host.Outcome.next (State.withRegs_retire regs t r r' v (signFlag ea))
  | bounds e => rfl
  | blocked => rfl

theorem mapNext_predicated (f : State → State) {o o' : Operands} {s : State} {e e' : Result} (hmask : o.mask = o'.mask)
    (he : mapNext f e = mapNext f e') : mapNext f (predicated o s e) = mapNext f (predicated o' s e') := by
  rw [predicated, predicated, hmask, apply_ite (mapNext f), apply_ite (mapNext f), he]

theorem aluInstr_withRegs (op : AluOp) (o : Operands) (s : State) (r r' : Reg) :
    mapNext (State.withRegs regs) (aluInstr op { o with rt := r } s) =
      mapNext (State.withRegs regs) (aluInstr op { o with rt := r' } s) :=
  mapNext_predicated _ rfl (congrArg Host.Outcome.next (State.withRegs_retireAlu regs s r r' _))

/-- STORE reads its rt, so it is left out. -/
theorem exec_setTarget_withRegs {i : Instr} (hstore : ∀ o, i ≠ .store o) (s : State) (r r' : Reg) :
    mapNext (State.withRegs regs) (exec (setTarget i r) s) = mapNext (State.withRegs regs) (exec (setTarget i r') s) := by
  cases i with
  | halt o => rfl
  | load o => exact mapNext_predicated _ rfl (loadEffect_withRegs regs s (effectiveAddress o s) r r')
  | store o => exact absurd rfl (hstore o)
  | add o => exact aluInstr_withRegs regs .add o s r r'
  | sub o => exact aluInstr_withRegs regs .sub o s r r'
  | mul o => exact aluInstr_withRegs regs .mul o s r r'
  | div o => exact aluInstr_withRegs regs .div o s r r'

end Forget

theorem mapNext_eq_fault {f : State → State} {e : Result} {c : Fault} (h : mapNext f e = .fault c) : e = .fault c := by
  cases e with
  | fault c' => exact h
  | _ => cases h

theorem mapNext_eq_next {f : State → State} {e : Result} {t : State} (h : mapNext f e = .next t) :
    ∃ u, e = .next u ∧ f u = t := by
  cases e with
  | next u => exact ⟨u, rfl, Host.Outcome.next.inj h⟩
  | _ => cases h

/-! ## The target is the one register an instruction writes -/

theorem ExecTo.readReg_eq {s t : State} {i : Instr} {j : Reg} (h : ExecTo s i t) (hpc : j ≠ 15)
    (hrt : j ≠ i.operands.rt) : t.readReg j = s.readReg j := by
  cases h with
  | masked => rw [State.readReg_advancePc, if_neg hpc]
  | loadFault | storeFault => rfl
  | halt | divZero | storeCell | storePort => exact (WritesNoReg.retireNoWrite ..).others j hpc
  | add | sub | mul | div | loadCell | loadPort => exact (WritesReg.retire ..).others j hrt hpc

theorem operands_setTarget_rt (i : Instr) (r : Reg) : (setTarget i r).operands.rt = r := by
  cases i <;> rfl

/-- With target r0 no register but the pc is written. -/
theorem readReg_of_exec_setTarget_zero {i : Instr} {s u : State} (h : exec (setTarget i 0) s = .next u) {j : Reg}
    (hpc : j ≠ 15) : u.readReg j = s.readReg j := by
  by_cases hj : j = 0
  · rw [hj, State.readReg_zero, State.readReg_zero]
  · exact (exec_next h).readReg_eq hpc (by rwa [operands_setTarget_rt])

/-- A register write changes the register file only. -/
theorem State.writeReg_eq_update (s : State) (i : Reg) (v : Word) :
    s.writeReg i v = { s with regs := (s.writeReg i v).regs } :=
  State.withRegs_writeReg (s.writeReg i v).regs s i v

/-- Settles O39: reads after a write give the primitive's clauses; two targets agree once registers are forgotten. -/
theorem writeRegPath : Obligations.WriteRegPath := by
  refine ⟨fun s v => rfl, fun s i v hi => ⟨?_, fun j hj => ?_, s.writeReg_eq_update i v⟩, fun i => decide_eq_true_iff,
    fun i s r hstore => ⟨fun c hc => ?_, fun t ht => ?_⟩⟩
  · rw [State.readReg_writeReg, if_pos ⟨rfl, hi⟩]
  · rw [State.readReg_writeReg, if_neg fun h => hj h.1]
  · have hforget := exec_setTarget_withRegs s.regs hstore s 0 r
    rw [hc] at hforget
    exact mapNext_eq_fault hforget
  · have hforget := exec_setTarget_withRegs s.regs hstore s 0 r
    rw [ht] at hforget
    obtain ⟨u, hu, heq⟩ := mapNext_eq_next hforget
    obtain ⟨_, _, hflags, hfsm, hfault, hmem, hin, hout⟩ := State.mk.inj heq
    exact ⟨u, hu, hflags, hmem, hin, hout, hfsm, hfault, fun j hpc => readReg_of_exec_setTarget_zero hu hpc⟩

/-! ## Start (R91) -/

theorem State.start_of_ready {s : State} (h : s.fsm = .ready) : s.start = s.setFsm .running := if_pos h

theorem State.start_of_ne_ready {s : State} (h : s.fsm ≠ .ready) : s.start = s := if_neg h

/-- Settles O32: start in Ready sets the FSM, and what is read from the rest is unchanged. -/
theorem startChangesOnlyTheFsm : Obligations.StartChangesOnlyTheFsm := by
  intro s h
  have hstart : s.start = s.setFsm .running := State.start_of_ready h
  exact ⟨hstart, congrArg State.fsm hstart, s.readReg_start, s.start_flags, fun a => by rw [State.start_mem]⟩

/-! ## Fetch (R92) -/

theorem step_of_pc_out_of_bounds {s : State} (ha : s.Active) (hout : ¬ s.inBounds s.pc) :
    step s = .next (s.takeFault (.memoryBounds s.pc .fetch s.pc)) := by
  obtain ⟨_, hs⟩ | ⟨hf, _⟩ | ⟨i, hf, _⟩ := step_cases ha
  · rw [hs, State.takeFault_start]
  · exact absurd hf.1 hout
  · exact absurd hf.1 hout

/-- Settles O33: the two answers of a fetch, by the bound on the pc. -/
theorem fetchReadsAtThePc : Obligations.FetchReadsAtThePc :=
  fun _ => ⟨State.fetch_ok,
    fun hout hrun => ⟨_, step_of_pc_out_of_bounds (.inr hrun) (Nat.not_lt.mpr hout), rfl, rfl⟩⟩

/-! ## Halted and Faulted (R103) -/

theorem runLoop_of_ne_running {s : State} (h : s.fsm ≠ .running) (budget n : Nat) :
    runLoop budget n s = .returned (s, n) := by
  cases budget with
  | zero => rfl
  | succ budget => exact if_neg h

/-- Settles O35: a terminal FSM is neither Ready, so start does nothing, nor Running, so the loop of run ends at once. -/
theorem terminalStatesStay : Obligations.TerminalStatesStay := by
  intro s h
  have hready : s.fsm ≠ .ready := by rcases h with h | h <;> simp [h]
  have hrun : s.fsm ≠ .running := by rcases h with h | h <;> simp [h]
  refine ⟨step_terminal h, fun m => ?_⟩
  rw [State.hostRun, State.start_of_ne_ready hready, runLoop_of_ne_running hrun]

end Sys2Proof.Machine
end

section
/-! PROOFS. Jumps (43_control.md R141, R143). Whatever the instruction, one that has a value to write retires with it,
up to an input value it takes (`exec_of_jumpTarget`); what a jump does is then the frame of retiring into r15, and the
fault at the target is that of the next fetch. -/

namespace Sys2Proof.Machine

theorem loadEffect_cell {s : State} {ea : Word} (hb : s.inBounds ea) (hi : ea ≠ s.cfg.ioInAddr) (rt : Reg) :
    loadEffect rt ea s = .next (s.retire rt (s.mem.read ea.toNat) (signFlag ea)) := by
  rw [loadEffect, loadUnit, if_neg (fun h => hi h.2), cellRead, State.memRead_ok hb]

/-- Start changes nothing a jump reads. -/
theorem jumpTarget_start (i : Instr) (s : State) : jumpTarget i s.start = jumpTarget i s := by
  cases i <;> simp [jumpTarget, State.inBounds]

section Jump
variable {i : Instr} {s : State} {v : Word}

/-- An executed instruction with a value to write retires with it; only a LOAD from the input port changes `inq`. -/
theorem exec_of_jumpTarget (hc : condTrue i.operands.mask s.flags = true) (hv : jumpTarget i s = some v) :
    ∃ q f, exec i s = .next ((s.setInq q).retire i.operands.rt v f) := by
  cases i with
  | halt o => cases hv
  | store o => cases hv
  | add o =>
    cases hv
    exact ⟨s.inq, _, exec_add hc⟩
  | sub o =>
    cases hv
    exact ⟨s.inq, _, exec_sub hc⟩
  | mul o =>
    rw [jumpTarget, ← wrap_mul_toInt] at hv
    cases hv
    exact ⟨s.inq, _, exec_mul hc⟩
  | div o =>
    rw [jumpTarget] at hv
    split_ifs at hv with hz
    cases hv
    exact ⟨s.inq, _, exec_div_nonzero hc hz⟩
  | load o =>
    rw [jumpTarget] at hv
    split_ifs at hv with hb hi
    · obtain ⟨q, hq⟩ := List.head?_eq_some_iff.mp hv
      exact ⟨q, _, (exec_load hc).trans (loadEffect_port hb hi hq o.rt)⟩
    · cases hv
      exact ⟨s.inq, _, (exec_load hc).trans (loadEffect_cell hb hi o.rt)⟩

/-- A jump completes with its target as the pc, whatever the target is. -/
theorem step_of_jump (hx : s.Executes i) (hrt : i.operands.rt = 15) (hv : jumpTarget i s = some v) :
    ∃ t, step s = .next t ∧ WritesReg s t 15 v ∧ t.fsm = .running ∧ t.fault = s.fault := by
  have ⟨ha, _, hc⟩ := hx
  obtain ⟨q, f, hexec⟩ := exec_of_jumpTarget (by rwa [State.start_flags]) ((jumpTarget_start i s).trans hv)
  rw [hrt] at hexec
  refine ⟨_, (step_of_executes hx).trans hexec, (WritesReg.retire ..).of_regs_eq ?_, ?_, ?_⟩
  · rw [State.setInq_regs, State.start_regs]
  · rw [State.retire_fsm, State.setInq_fsm, State.start_fsm_of_active ha]
  · rw [State.retire_fault, State.setInq_fault, State.start_fault]

end Jump

/-- Settles O28: a jump's step completes at its target, and the fault there is the one of a fetch out of bounds, which
keeps registers and flags. -/
theorem jumpTargetsFaultAtNextFetch : Obligations.JumpTargetsFaultAtNextFetch := by
  intro i s v hx hrt hv
  obtain ⟨t, hstep, hw, hrun, hfault⟩ := step_of_jump hx hrt hv
  have hpc : t.pc = v := hw.pc
  refine ⟨t, hstep, hpc, hrun, hfault, fun j hj => hw.others j hj hj, fun hout => ?_⟩
  have hnext := step_of_pc_out_of_bounds (.inr hrun) (Nat.not_lt.mpr (hpc ▸ hout))
  rw [hpc] at hnext
  exact ⟨_, hnext, rfl, rfl, rfl, fun _ => rfl⟩

end Sys2Proof.Machine
end

section
/-! PROOFS. Fatal errors (60_exceptions.md R151). A memory fault, whatever raised it, is one state change: the state itself
takes the fault. The fetch and each access are brought to that form, and what R151 asks of it is said once. -/

namespace Sys2Proof.Machine

/-! ## A step that takes a fault -/

/-- A fault taken is fatal: the FSM is Faulted with the record held, and a further step stays there. -/
theorem fatal_of_step_takeFault {s : State} {e : FaultRecord} (h : step s = .next (s.takeFault e)) :
    ∃ t, step s = .next t ∧ t.fsm = .faulted ∧ t.fault = some e ∧ step t = .next t :=
  ⟨_, h, s.takeFault_fsm e, s.takeFault_fault e, step_terminal (.inr (s.takeFault_fsm e))⟩

/-! ## An access out of bounds (R132, R133) -/

theorem loadEffect_out_of_bounds {s : State} {ea : Word} (hout : ¬ s.inBounds ea) (rt : Reg) :
    loadEffect rt ea s = .next (s.takeFault (.memoryBounds ea .load s.pc)) := by
  rw [loadEffect, loadUnit, if_neg (fun h => hout h.1), cellRead, State.memRead_error hout]

theorem storeEffect_out_of_bounds {s : State} {ea : Word} (hout : ¬ s.inBounds ea) (rt : Reg) :
    storeEffect rt ea s = .next (s.takeFault (.memoryBounds ea .store s.pc)) := by
  rw [storeEffect, storeUnit, if_neg (fun h => hout h.1), State.memWrite_error hout]

section Access
variable {s : State} {o : Operands}

theorem step_load_out_of_bounds (hx : s.Executes (.load o)) (hout : ¬ s.inBounds (effectiveAddress o s)) :
    step s = .next (s.takeFault (.memoryBounds (effectiveAddress o s) .load s.pc)) := by
  rw [step_load hx, loadEffect_out_of_bounds (mt (s.inBounds_start _).mp hout), State.takeFault_start, State.pc_start]

theorem step_store_out_of_bounds (hx : s.Executes (.store o)) (hout : ¬ s.inBounds (effectiveAddress o s)) :
    step s = .next (s.takeFault (.memoryBounds (effectiveAddress o s) .store s.pc)) := by
  rw [step_store hx, storeEffect_out_of_bounds (mt (s.inBounds_start _).mp hout), State.takeFault_start, State.pc_start]

end Access

/-! ## Memory faults (R151) -/

/-- Settles O37: the fetch and the two accesses each take their fault, and a fault taken is fatal. -/
theorem memoryFaultRecords : Obligations.MemoryFaultRecords :=
  fun _ ha =>
    ⟨fun hout => fatal_of_step_takeFault (step_of_pc_out_of_bounds ha hout),
      fun _ hx hout => fatal_of_step_takeFault (step_load_out_of_bounds hx hout),
      fun _ hx hout => fatal_of_step_takeFault (step_store_out_of_bounds hx hout)⟩

end Sys2Proof.Machine
end

section
/-! PROOFS. The codec's insertion and the encoder (30_encoding.md R70 to R72). An inserted word is read bit by bit,
which gives its field back. Into a word that is zero from the field's upper end down, the field goes in as the next
digit of a number, so encode's chain of insertions packs the closed form. -/

namespace Sys2Proof

/-! ## Insertion, bit by bit (R70) -/

/-- The word `insert` answers, for the field's value as a natural number. -/
def insertedWord (w : Word) (width offset u : Nat) : Word :=
  (w &&& ~~~ fieldOnes width offset) ||| BitVec.ofNat 32 (u * 2 ^ offset)

theorem insertField_ok {width offset : Nat} {v : Int} {signed : Bool} (hok : descriptorOk width offset)
    (hv : insertable width v signed) (w : Word) :
    insertField w width offset v signed = .ok (insertedWord w width offset (v % 2 ^ width).toNat) := by
  rw [insertField, if_pos hok, if_pos hv, insertedWord]

theorem insertField_contract {width offset : Nat} (h : ¬ descriptorOk width offset) (w : Word) (v : Int)
    (signed : Bool) : insertField w width offset v signed = .error .contract := if_neg h

theorem insertField_range {width offset : Nat} {v : Int} {signed : Bool} (hok : descriptorOk width offset)
    (hv : ¬ insertable width v signed) (w : Word) :
    insertField w width offset v signed = .error .encodingRange := by
  rw [insertField, if_pos hok, if_neg hv]

theorem emod_two_pow_toNat_lt (v : Int) (width : Nat) : (v % 2 ^ width).toNat < 2 ^ width := by
  have hpos : (0 : Int) < 2 ^ width := Int.pow_pos (by decide)
  have hlt := Int.emod_lt_of_pos v hpos
  have hnonneg := Int.emod_nonneg v (Int.ne_of_gt hpos)
  zify
  omega

theorem getLsbD_fieldOnes (width offset : Nat) {i : Nat} (hi : i < 32) :
    (fieldOnes width offset).getLsbD i = (decide (offset ≤ i) && decide (i < offset + width)) := by
  rw [fieldOnes, BitVec.getLsbD_ofNat, Nat.testBit_mul_two_pow, Nat.testBit_two_pow_sub_one]
  simp only [hi, decide_true, Bool.true_and]
  by_cases h : offset ≤ i
  · have hlt : i - offset < width ↔ i < offset + width := by omega
    simp [h, hlt]
  · simp [h]

/-- Inside the field an inserted word has the bits of the value, elsewhere those of the word it went into. -/
theorem getLsbD_insertedWord (w : Word) {width offset u i : Nat} (hu : u < 2 ^ width) (hi : i < 32) :
    (insertedWord w width offset u).getLsbD i =
      if offset ≤ i ∧ i < offset + width then u.testBit (i - offset) else w.getLsbD i := by
  rw [insertedWord, BitVec.getLsbD_or, BitVec.getLsbD_and, BitVec.getLsbD_not, getLsbD_fieldOnes width offset hi,
    BitVec.getLsbD_ofNat, Nat.testBit_mul_two_pow]
  by_cases hlow : offset ≤ i
  · by_cases hhigh : i < offset + width
    · simp [hi, hlow, hhigh]
    · have hz : u.testBit (i - offset) = false :=
        Nat.testBit_lt_two_pow (hu.trans_le (Nat.pow_le_pow_right (by decide) (by omega)))
      simp [hi, hlow, hhigh, hz]
  · simp [hi, hlow]

theorem fieldUnsigned_insertedWord (w : Word) {width offset u : Nat} (hok : descriptorOk width offset)
    (hu : u < 2 ^ width) : fieldUnsigned (insertedWord w width offset u) width offset = u := by
  obtain ⟨_, hend⟩ := hok
  apply Nat.eq_of_testBit_eq
  intro i
  by_cases hi : i < width
  · rw [testBit_fieldUnsigned _ offset hi, getLsbD_insertedWord w hu (by omega), if_pos (by omega)]
    simp
  · have hle : 2 ^ width ≤ 2 ^ i := Nat.pow_le_pow_right (by decide) (Nat.not_lt.mp hi)
    rw [Nat.testBit_lt_two_pow (hu.trans_le hle),
      Nat.testBit_lt_two_pow ((fieldUnsigned_lt _ width offset).trans_le hle)]

/-- The signed reading is the balanced remainder of the unsigned one. -/
theorem fieldSigned_eq_bmod (w : Word) (width offset : Nat) :
    fieldSigned w width offset = Int.bmod (fieldUnsigned w width offset) (2 ^ width) := by
  rw [← toInt_extractLsb'_eq_fieldSigned, BitVec.toInt_eq_toNat_bmod, toNat_extractLsb'_eq_fieldUnsigned]

theorem fieldSigned_emod (w : Word) (width offset : Nat) :
    fieldSigned w width offset % ((2 ^ width : Nat) : Int) = fieldUnsigned w width offset := by
  rw [fieldSigned_eq_bmod, Int.bmod_emod]
  exact_mod_cast Nat.mod_eq_of_lt (fieldUnsigned_lt w width offset)

/-- A field that holds the remainder of a value in the signed range reads as that value. -/
theorem fieldSigned_of_emod {w : Word} {width offset : Nat} {v : Int} (hwidth : 1 ≤ width)
    (hv : insertable width v true) (hu : (fieldUnsigned w width offset : Int) = v % 2 ^ width) :
    fieldSigned w width offset = v := by
  obtain ⟨k, rfl⟩ : ∃ k, width = k + 1 := ⟨width - 1, by omega⟩
  obtain ⟨hlow, hhigh⟩ := hv
  have hcast : (2 : Int) ^ (k + 1) = ((2 ^ (k + 1) : Nat) : Int) := by push_cast; rfl
  rw [fieldSigned_eq_bmod, hu, hcast, Int.emod_bmod]
  have hpow : (2 : Int) ^ (k + 1) = 2 ^ k * 2 := pow_succ 2 k
  apply Int.bmod_eq_of_le_mul_two <;> rw [← hcast] <;> simp only [Nat.add_sub_cancel] at hlow hhigh <;> omega

theorem extractField_insertedWord {width offset : Nat} {v : Int} {signed : Bool} (hok : descriptorOk width offset)
    (hv : insertable width v signed) (w : Word) :
    extractField (insertedWord w width offset (v % 2 ^ width).toNat) width offset signed = .ok v := by
  have hfield := fieldUnsigned_insertedWord w hok (emod_two_pow_toNat_lt v width)
  have hnat : ((v % 2 ^ width).toNat : Int) = v % 2 ^ width :=
    Int.toNat_of_nonneg (Int.emod_nonneg v (Int.ne_of_gt (Int.pow_pos (by decide))))
  cases signed with
  | true => rw [extractField_signed hok, fieldSigned_of_emod hok.1 hv (by rw [hfield, hnat])]
  | false =>
    obtain ⟨hlow, hhigh⟩ := hv
    rw [extractField_unsigned hok, hfield, hnat, Int.emod_eq_of_lt hlow hhigh]

/-- Settles O5: the inserted word, read bit by bit. -/
theorem insertThenExtract : Obligations.InsertThenExtract := by
  intro w width offset v signed hok hv
  refine ⟨_, insertField_ok hok hv w, extractField_insertedWord hok hv w, fun i hi => ?_⟩
  by_cases hlt : i < 32
  · rw [getLsbD_insertedWord w (emod_two_pow_toNat_lt v width) hlt, if_neg (by omega)]
  · rw [BitVec.getLsbD_of_ge _ i (Nat.not_lt.mp hlt), BitVec.getLsbD_of_ge _ i (Nat.not_lt.mp hlt)]

/-- Settles O6: each check is the condition of one branch. -/
theorem codecRejects : Obligations.CodecRejects :=
  ⟨fun w _ _ v signed => ⟨fun h => ⟨extractField_contract h w signed, insertField_contract h w v signed⟩,
    fun hok hv => insertField_range hok hv w⟩, fun _ _ _ _ _ _ h => if_neg h⟩

/-! ## Insertion below a number's last digit (R72) -/

/-- Into a word that is zero below bit `n`, a field that ends at bit `n` goes in as the number's next digit. -/
theorem insertedWord_next {width offset n u : Nat} (hn : offset + width = n) (hu : u < 2 ^ width) (k : Nat) :
    insertedWord (BitVec.ofNat 32 (k * 2 ^ n)) width offset u = BitVec.ofNat 32 ((k * 2 ^ width + u) * 2 ^ offset) := by
  subst hn
  apply BitVec.eq_of_getLsbD_eq
  intro i hi
  rw [getLsbD_insertedWord _ hu hi, BitVec.getLsbD_ofNat, BitVec.getLsbD_ofNat, Nat.testBit_mul_two_pow,
    Nat.testBit_mul_two_pow, Nat.mul_comm k, Nat.testBit_two_pow_mul_add k hu]
  by_cases hlow : offset ≤ i
  · by_cases hhigh : i < offset + width
    · have hin : i - offset < width := by omega
      simp [hi, hlow, hhigh, hin]
    · have hout : ¬ i - offset < width := by omega
      simp [hi, hlow, hhigh, hout, Nat.not_lt.mp hhigh, Nat.sub_sub]
  · have hout : ¬ offset + width ≤ i := by omega
    simp [hlow, hout]

theorem insertField_next {width offset n : Nat} {v : Int} {signed : Bool} (hok : descriptorOk width offset)
    (hv : insertable width v signed) (hn : offset + width = n) (k : Nat) :
    insertField (BitVec.ofNat 32 (k * 2 ^ n)) width offset v signed =
      .ok (BitVec.ofNat 32 ((k * 2 ^ width + (v % 2 ^ width).toNat) * 2 ^ offset)) := by
  rw [insertField_ok hok hv, insertedWord_next hn (emod_two_pow_toNat_lt v width)]

theorem insertField_next_unsigned {width offset n u : Nat} (hok : descriptorOk width offset) (hu : u < 2 ^ width)
    (hn : offset + width = n) (k : Nat) :
    insertField (BitVec.ofNat 32 (k * 2 ^ n)) width offset u false =
      .ok (BitVec.ofNat 32 ((k * 2 ^ width + u) * 2 ^ offset)) := by
  have hv : insertable width (u : Int) false := ⟨Int.natCast_nonneg u, by exact_mod_cast hu⟩
  have hmod : ((u : Int) % 2 ^ width).toNat = u := by
    rw [Int.emod_eq_of_lt hv.1 hv.2, Int.toNat_natCast]
  rw [insertField_next hok hv hn, hmod]

/-- The chain of insertions packs the fields. -/
theorem encodeFields_eq_packWord {op : Nat} {o : Operands} (hop : op < 32) (ho : o.wf) :
    encodeFields op o.mask.toNat o.rt.val o.rs1.val o.rs2.val o.disp = .ok (packWord op o) := by
  have hm := o.mask.toNat_lt
  have hrt := o.rt.isLt
  have hrs1 := o.rs1.isLt
  have hrs2 := o.rs2.isLt
  obtain ⟨hlow, hhigh⟩ := ho
  have henc : encodable op o.mask.toNat o.rt.val o.rs1.val o.rs2.val o.disp := by omega
  have hd : insertable 10 o.disp true := ⟨hlow, Int.lt_add_one_of_le hhigh⟩
  rw [encodeFields, if_pos henc]
  have h1 : insertField 0 5 26 op false = _ := insertField_next_unsigned (n := 31) (by decide) hop rfl 0
  have h2 := insertField_next_unsigned (width := 4) (offset := 22) (by decide) hm rfl
  have h3 := insertField_next_unsigned (width := 4) (offset := 18) (by decide) hrt rfl
  have h4 := insertField_next_unsigned (width := 4) (offset := 14) (by decide) hrs1 rfl
  have h5 := insertField_next_unsigned (width := 4) (offset := 10) (by decide) hrs2 rfl
  have h6 := insertField_next (width := 10) (offset := 0) (by decide) hd rfl
  rw [h1]
  simp only [bind, Except.bind, h2, h3, h4, h5, h6]
  rw [packWord]
  congr 2
  omega

end Sys2Proof
end

section
/-! PROOFS. The decoder against the encoder (30_encoding.md R63 to R68, R73, R74). Decoding a packed word gives what
was packed, and packing a word's fields gives the word without bit 31: every round trip is one of these two, and so is
that bit 31 is ignored. -/

namespace Sys2Proof

open Machine

/-! ## The fields of a word, and a word from fields (R61, R65) -/

theorem Mask.toNat_injective {m m' : Mask} (h : m.toNat = m'.toNat) : m = m' := by
  rcases m with ⟨a, b, c, d⟩
  rcases m' with ⟨a', b', c', d'⟩
  revert a b c d a' b' c' d'
  decide

theorem exists_mask_toNat {n : Nat} (h : n < 16) : ∃ m : Mask, m.toNat = n := by
  refine ⟨⟨n.testBit 0, n.testBit 1, n.testBit 2, n.testBit 3⟩, ?_⟩
  simp only [Mask.toNat, Nat.toNat_testBit]
  omega

theorem toNat_maskField (w : Word) : (maskField w).toNat = fieldUnsigned w 4 22 := by
  simp only [Mask.toNat, maskField, fieldUnsigned, ← BitVec.testBit_toNat, Nat.toNat_testBit]
  omega

theorem toNat_opField (w : Word) : (opField w).toNat = fieldUnsigned w 5 26 := by
  rw [opField, BitVec.toNat_ofNat, Nat.mod_eq_of_lt (fieldUnsigned_lt w 5 26)]

/-- Decoding a packed word gives what was packed. -/
theorem decodeFields_packWord {op : Nat} {o : Operands} (hop : op < 32) (ho : o.wf) :
    decodeFields (packWord op o) = ⟨BitVec.ofNat 5 op, o⟩ := by
  have hval := packWord_toNat op o hop
  have hm := o.mask.toNat_lt
  have hrt := o.rt.isLt
  have hrs1 := o.rs1.isLt
  have hrs2 := o.rs2.isLt
  have hu : (o.disp % 1024).toNat < 1024 := emod_two_pow_toNat_lt o.disp 10
  have hop' : opField (packWord op o) = BitVec.ofNat 5 op := by
    rw [opField, fieldUnsigned, hval]
    congr 1
    omega
  have hmask : maskField (packWord op o) = o.mask := by
    apply Mask.toNat_injective
    rw [toNat_maskField, fieldUnsigned, hval]
    omega
  have hreg (offset : Nat) (r : Reg) (h : (packWord op o).toNat / 2 ^ offset % 16 = r.val) :
      regField (packWord op o) offset = r := Fin.ext h
  have hdisp : fieldSigned (packWord op o) 10 0 = o.disp := by
    refine fieldSigned_of_emod (by decide) ⟨ho.1, Int.lt_add_one_of_le ho.2⟩ ?_
    rw [fieldUnsigned, hval]
    omega
  rw [decodeFields, operandFields, hop', hmask, hreg 18 o.rt (by rw [hval]; omega), hreg 14 o.rs1 (by rw [hval]; omega),
    hreg 10 o.rs2 (by rw [hval]; omega), hdisp]

theorem toNat_clearBit31 (w : Word) : (w &&& 0x7FFFFFFF).toNat = w.toNat % 2 ^ 31 :=
  (BitVec.toNat_and w _).trans (Nat.and_two_pow_sub_one_eq_mod w.toNat 31)

/-- Packing the fields of a word gives the word without bit 31. -/
theorem packWord_decodeFields (w : Word) : packWord (opField w).toNat (operandFields w) = w &&& 0x7FFFFFFF := by
  have hdisp : (fieldSigned w 10 0 % 1024).toNat = fieldUnsigned w 10 0 := by
    rw [show (1024 : Int) = ((2 ^ 10 : Nat) : Int) from rfl, fieldSigned_emod, Int.toNat_natCast]
  apply BitVec.eq_of_toNat_eq
  rw [packWord_toNat _ _ (opField w).isLt, toNat_clearBit31, toNat_opField, operandFields, toNat_maskField, hdisp]
  simp only [regField, fieldUnsigned]
  omega

theorem getLsbD_packWord_31 {op : Nat} (hop : op < 32) (o : Operands) : (packWord op o).getLsbD 31 = false := by
  have hm := o.mask.toNat_lt
  have hrt := o.rt.isLt
  have hrs1 := o.rs1.isLt
  have hrs2 := o.rs2.isLt
  rw [← BitVec.testBit_toNat]
  apply Nat.testBit_lt_two_pow
  rw [packWord_toNat op o hop]
  omega

/-! ## Round trips of field tuples (R73) -/

/-- Every tuple in range is the fields of an opcode and well-formed operands. -/
theorem exists_operands_of_encodable {op mask rt rs1 rs2 disp : Int} (h : encodable op mask rt rs1 rs2 disp) :
    ∃ (n : Nat) (o : Operands), n < 32 ∧ o.wf ∧ op = n ∧ mask = o.mask.toNat ∧ rt = o.rt.val ∧ rs1 = o.rs1.val ∧
      rs2 = o.rs2.val ∧ disp = o.disp := by
  obtain ⟨⟨hop, hop'⟩, ⟨hmask, hmask'⟩, ⟨hrt, hrt'⟩, ⟨hrs1, hrs1'⟩, ⟨hrs2, hrs2'⟩, hdisp⟩ := h
  lift op to Nat using hop
  lift mask to Nat using hmask
  lift rt to Nat using hrt
  lift rs1 to Nat using hrs1
  lift rs2 to Nat using hrs2
  obtain ⟨m, rfl⟩ := exists_mask_toNat (n := mask) (by omega)
  exact ⟨op, ⟨m, ⟨rt, by omega⟩, ⟨rs1, by omega⟩, ⟨rs2, by omega⟩, disp⟩, by omega, hdisp, rfl, rfl, rfl, rfl, rfl, rfl⟩

/-- Settles O7: the packed word is the closed form. -/
theorem encodeClosedForm : Obligations.EncodeClosedForm := by
  intro op mask rt rs1 rs2 disp h
  obtain ⟨n, o, hn, ho, rfl, rfl, rfl, rfl, rfl, rfl⟩ := exists_operands_of_encodable h
  have hdisp : o.disp % 1024 = ((o.disp % 1024).toNat : Int) := by omega
  rw [encodeFields_eq_packWord hn ho, packWord, wrap, hdisp, ← BitVec.ofInt_natCast]
  push_cast
  rfl

/-- Settles O8: the tuple is packed, and decoding a packed word gives what was packed. -/
theorem fieldTuplesRoundTrip : Obligations.FieldTuplesRoundTrip := by
  intro op mask rt rs1 rs2 disp h
  obtain ⟨n, o, hn, ho, rfl, rfl, rfl, rfl, rfl, rfl⟩ := exists_operands_of_encodable h
  refine ⟨packWord n o, encodeFields_eq_packWord hn ho, getLsbD_packWord_31 hn o, ?_⟩
  rw [decodeFields_packWord hn ho]
  refine ⟨?_, rfl, rfl, rfl, rfl, rfl⟩
  rw [BitVec.toNat_ofNat, Nat.mod_eq_of_lt hn]

/-! ## Round trips of instructions -/

/-- The opcode map is one-to-one on the opcodes of its seven instructions (R66). -/
theorem instr_of_opcode (i : Instr) : Decoded.instr ⟨BitVec.ofNat 5 i.opcode, i.operands⟩ = .ok i := by
  cases i <;> rfl

/-- Settles O9: an instruction is its opcode and operands packed. -/
theorem decodeEncodeInstr : Obligations.DecodeEncodeInstr := by
  intro i hi
  have hop : i.opcode < 32 := i.opcode_le.trans_lt (by decide)
  rw [decode, encode, decodeFields_packWord hop hi, instr_of_opcode]

theorem encode_of_decode {w : Word} {i : Instr} (h : decode w = .ok i) : encode i = w &&& 0x7FFFFFFF := by
  obtain ⟨hoperands, hopcode, _⟩ := decode_ok h
  rw [encode, hoperands, hopcode, packWord_decodeFields]

/-- Settles O10: what a word decodes to is packed again. -/
theorem encodeDecodeWord : Obligations.EncodeDecodeWord := by
  refine fun w => ⟨?_, fun i h => ⟨?_, encode_of_decode h⟩⟩
  · rw [← packWord_decodeFields]
    exact encodeFields_eq_packWord (opField w).isLt (operandFields_wf w)
  · rw [Instr.wf, (decode_ok h).1]
    exact operandFields_wf w

/-! ## Bit 31 (R68) -/

/-- Decoding reads a word only through its packed fields, so not bit 31. -/
theorem decodeFields_clearBit31 (w : Word) : decodeFields (w &&& 0x7FFFFFFF) = decodeFields w := by
  rw [← packWord_decodeFields, decodeFields_packWord (opField w).isLt (operandFields_wf w), BitVec.ofNat_toNat,
    BitVec.setWidth_eq, decodeFields]

theorem decodeFields_setBit31 (w : Word) : decodeFields (w ||| 0x80000000) = decodeFields w := by
  have hclear : (w ||| 0x80000000) &&& 0x7FFFFFFF = w &&& 0x7FFFFFFF := by
    rw [BitVec.and_or_distrib_right, show (0x80000000 : Word) &&& 0x7FFFFFFF = 0 by decide]
    exact BitVec.or_zero
  rw [← decodeFields_clearBit31, hclear, decodeFields_clearBit31]

/-- Settles O12: running a word reads its decoded fields alone. -/
theorem bit31IsIgnored : Obligations.Bit31IsIgnored := by
  intro w s
  have hfields := decodeFields_setBit31 w
  exact ⟨hfields, by rw [runWord, runWord, decode, decode, hfields]⟩

/-! ## Decoding (R63, R66, R67) -/

/-- Settles O1: each word is decoded. -/
theorem specWordsDecode : Obligations.SpecWordsDecode := by
  unfold Obligations.SpecWordsDecode
  decide

/-- Settles O3: each field is the checked extraction with its descriptor. -/
theorem decodeIsFieldExtraction : Obligations.DecodeIsFieldExtraction := by
  refine ⟨fun w => ⟨?_, rfl, extractField_unsigned (by decide) w, extractField_unsigned (by decide) w,
    extractField_unsigned (by decide) w, extractField_signed (by decide) w⟩, by decide⟩
  rw [decodeFields, toNat_opField]
  exact extractField_unsigned (by decide) w

/-- A word decodes to `i` exactly when it has the opcode and operands of `i`. -/
theorem decode_eq_ok_iff {w : Word} {i : Instr} :
    decode w = .ok i ↔ i.opcode = (opField w).toNat ∧ i.operands = operandFields w := by
  constructor
  · intro h
    obtain ⟨hoperands, hopcode, _⟩ := decode_ok h
    exact ⟨hopcode, hoperands⟩
  · rintro ⟨hopcode, hoperands⟩
    rw [decode, decodeFields, ← hoperands, ← instr_of_opcode i, hopcode, BitVec.ofNat_toNat, BitVec.setWidth_eq]

theorem decode_of_opcode_le {w : Word} (h : (opField w).toNat ≤ 6) : ∃ i, decode w = .ok i := by
  cases hd : decode w with
  | ok i => exact ⟨i, rfl⟩
  | error e => exact absurd (decode_error hd).2 (Nat.not_lt.mpr h)

theorem decode_of_opcode_gt {w : Word} (h : 6 < (opField w).toNat) :
    decode w = .error (.unknownOpcode (opField w)) := by
  cases hd : decode w with
  | ok i => exact absurd (decode_ok hd).2.2 (Nat.not_le.mpr h)
  | error e => rw [(decode_error hd).1]

/-- Settles O11: the opcode field decides whether a word decodes. -/
theorem unknownOpcodesAreSevenUp : Obligations.UnknownOpcodesAreSevenUp := by
  intro w
  rw [extractLsb'_eq_opField]
  refine ⟨decode_of_opcode_gt, fun h => ?_⟩
  obtain ⟨i, hi⟩ := decode_of_opcode_le h
  exact ⟨i, hi, (decode_eq_ok_iff.mp hi).1⟩

/-! ## The decoder block (R74) -/

theorem exists_decode_eq_ok_iff {w : Word} {mk : Operands → Instr} {k : Nat} (hopcode : ∀ o, (mk o).opcode = k)
    (hoperands : ∀ o, (mk o).operands = o) : (opField w).toNat = k ↔ ∃ o, decode w = .ok (mk o) := by
  simp only [decode_eq_ok_iff, hopcode, hoperands]
  exact ⟨fun h => ⟨operandFields w, h.symm, rfl⟩, fun ⟨_, h, _⟩ => h.symm⟩

/-- Among the seven select lines one is up for a legal opcode and none for another. -/
theorem selectLines_count (op : BitVec 5) :
    (decide (op = 0)).toNat + (decide (op = 1)).toNat + (decide (op = 2)).toNat + (decide (op = 3)).toNat +
      (decide (op = 4)).toNat + (decide (op = 5)).toNat + (decide (op = 6)).toNat = (decide (op ≤ 6)).toNat := by
  revert op
  decide

/-- Settles O13: wires are slices of the word, select lines compare the opcode, and the count is over 32 opcodes. -/
theorem decoderBlockAgrees : Obligations.DecoderBlockAgrees := by
  intro w
  have hop := extractLsb'_eq_opField w
  have hreg (offset : Nat) : (w.extractLsb' offset 4).toNat = (regField w offset).val :=
    toNat_extractLsb'_eq_fieldUnsigned w 4 offset
  have hline {k : Nat} {mk : Operands → Instr} (hk : k < 32) (hopcode : ∀ o, (mk o).opcode = k)
      (hoperands : ∀ o, (mk o).operands = o) :
      decide (w.extractLsb' 26 5 = BitVec.ofNat 5 k) = true ↔ ∃ o, decode w = .ok (mk o) := by
    rw [decide_eq_true_iff, hop, ← exists_decode_eq_ok_iff hopcode hoperands, BitVec.toNat_eq, BitVec.toNat_ofNat,
      Nat.mod_eq_of_lt hk]
  have hlegal : decide (w.extractLsb' 26 5 ≤ 6) = true ↔ ∃ i, decode w = .ok i := by
    rw [decide_eq_true_iff, hop]
    exact ⟨decode_of_opcode_le, fun ⟨i, hi⟩ => (decode_ok hi).2.2⟩
  exact ⟨hop, rfl, hreg 18, hreg 14, hreg 10, (wrap_disp_operandFields w).symm, hlegal,
    hline (by decide) (fun _ => rfl) fun _ => rfl, hline (by decide) (fun _ => rfl) fun _ => rfl,
    hline (by decide) (fun _ => rfl) fun _ => rfl, hline (by decide) (fun _ => rfl) fun _ => rfl,
    hline (by decide) (fun _ => rfl) fun _ => rfl, hline (by decide) (fun _ => rfl) fun _ => rfl,
    hline (by decide) (fun _ => rfl) fun _ => rfl, selectLines_count _⟩

end Sys2Proof
end

section
/-! PROOFS. What each instruction does (40_cycle.md R94, R95; 41_alu.md; 42_load_store.md; 43_control.md). An
instruction that completes ends in `retire` or in `retireNoWrite`: the frame of each is stated once
(`completes_of_retire`, `completes_of_retireNoWrite`), and an instruction's proof names the way it ends and the word
it computes. -/

namespace Sys2Proof.Machine

/-! ## The two ways to complete -/

section Completes
variable {i : Instr} {s : State}

theorem completes_of_retire {rt : Reg} {v u : Word} (h : exec i s = .next (s.retire rt v (signFlag u))) :
    ∃ t, exec i s = .next t ∧ WritesReg s t rt v ∧ t.flags = signFlag u ∧ SameMemory s t ∧ SameStreams s t ∧
      SameControl s t :=
  ⟨_, h, .retire .., s.retire_flags .., fun a => by rw [State.retire_mem], ⟨s.retire_inq .., s.retire_outq ..⟩,
    s.retire_cfg .., s.retire_fsm .., s.retire_fault ..⟩

theorem completes_of_retireNoWrite {f : CondCode} (h : exec i s = .next (s.retireNoWrite f)) :
    ∃ t, exec i s = .next t ∧ WritesNoReg s t ∧ t.flags = f ∧ SameMemory s t ∧ SameStreams s t ∧ SameControl s t :=
  ⟨_, h, .retireNoWrite .., s.retireNoWrite_flags .., fun a => by rw [State.retireNoWrite_mem],
    ⟨s.retireNoWrite_inq .., s.retireNoWrite_outq ..⟩, s.retireNoWrite_cfg .., s.retireNoWrite_fsm ..,
    s.retireNoWrite_fault ..⟩

end Completes

/-! ## Predication (R94, R95) -/

/-- Settles O14: the flags are one-hot, so one disjunct of `condTrue` is left. -/
theorem maskSelectsTheSetFlag : Obligations.MaskSelectsTheSetFlag := by
  constructor
  · intro m f
    cases f <;> simp [condTrue, CondCode.isM, CondCode.isZ, CondCode.isP, CondCode.isV]
  · intro f
    cases f <;> exact ⟨rfl, rfl⟩

/-- A pc that advances is an instruction that retires with the flags it found. -/
theorem State.advancePc_eq_retireNoWrite (s : State) : s.advancePc = s.retireNoWrite s.flags := rfl

/-- Settles O15: a masked-off instruction retires with the flags it found. -/
theorem maskedOffOnlyAdvancesPc : Obligations.MaskedOffOnlyAdvancesPc := by
  intro i s h
  exact completes_of_retireNoWrite (by rw [exec_masked h, State.advancePc_eq_retireNoWrite])

/-! ## ALU (R120 to R124) -/

/-- Settles O16: ADD retires with the wrapped sum. -/
theorem addExecutes : Obligations.AddExecutes := by
  intro o s hc r
  have hr : r = operand1 o s + operand2 o s := wrap_add_toNat _ _
  exact completes_of_retire (by rw [hr, exec_add hc])

/-- Settles O17: SUB retires with the wrapped difference. -/
theorem subExecutes : Obligations.SubExecutes := by
  intro o s hc r
  have hr : r = operand1 o s - operand2 o s := wrap_sub_toNat _ _
  exact completes_of_retire (by rw [hr, exec_sub hc])

/-- Settles O18: MUL retires with the wrapped product, which is the bit vector product of both readings. -/
theorem mulExecutes : Obligations.MulExecutes := by
  intro o s hc a b r
  have hr : r = a * b := wrap_mul_toInt a b
  refine ⟨?_, completes_of_retire (exec_mul hc)⟩
  rw [hr, BitVec.ofNat_mul, BitVec.ofNat_toNat, BitVec.ofNat_toNat, BitVec.setWidth_eq, BitVec.setWidth_eq]

/-- Settles O19: DIV retires with the wrapped quotient. -/
theorem divExecutes : Obligations.DivExecutes := by
  intro o s hc hz r
  exact completes_of_retire (exec_div_nonzero hc hz)

theorem natAbs_tmod_lt (a : Int) {b : Int} (hb : b ≠ 0) : (a.tmod b).natAbs < b.natAbs := by
  rw [Int.natAbs_tmod]
  exact Nat.mod_lt _ (Int.natAbs_pos.mpr hb)

theorem tmod_nonpos {a : Int} (b : Int) (ha : a ≤ 0) : a.tmod b ≤ 0 := by
  have h := Int.tmod_nonneg b (Int.neg_nonneg_of_nonpos ha)
  rw [Int.neg_tmod] at h
  omega

/-- Settles O20: but for -2^31 / -1 the quotient does not wrap, and what is left over is the truncated remainder. -/
theorem divRoundsTowardZero : Obligations.DivRoundsTowardZero := by
  intro a b hb
  refine ⟨wrap (Int.tdiv a.toInt b.toInt), if_neg hb, ?_, fun hex => ?_⟩
  · rintro ⟨rfl, rfl⟩
    decide
  · have hq : (wrap (Int.tdiv a.toInt b.toInt)).toInt = Int.tdiv a.toInt b.toInt := by
      rw [wrap_tdiv_toInt, BitVec.toInt_sdiv_of_ne_or_ne a b (not_and_or.mp hex)]
    have hrem : a.toInt - (wrap (Int.tdiv a.toInt b.toInt)).toInt * b.toInt = Int.tmod a.toInt b.toInt := by
      rw [hq, Int.tmod_def, Int.mul_comm]
    have hb' : b.toInt ≠ 0 := mt (fun h => BitVec.eq_of_toInt_eq (h.trans BitVec.toInt_zero.symm)) hb
    simp only [hrem]
    exact ⟨natAbs_tmod_lt _ hb', Int.tmod_nonneg _, tmod_nonpos _⟩

/-- V rises only when an instruction divides by zero: every other end sets the sign flag or keeps the flags (R153). -/
theorem ExecTo.div_zero_of_flags_V {s t : State} {i : Instr} (h : ExecTo s i t) (hs : s.flags ≠ .V)
    (ht : t.flags = .V) : ∃ o, i = .div o ∧ condTrue o.mask s.flags = true ∧ operand2 o s = 0 := by
  cases h with
  | divZero hc hz => exact ⟨_, rfl, hc, hz⟩
  | masked | halt | loadFault | storeFault => exact absurd ht (by simpa using hs)
  | _ => exact absurd ht (by simpa using signFlag_ne_V _)

/-- Settles O21: DIV by zero retires with V and writes no register, and it is the only way of a step to raise V. -/
theorem divisionByZeroIsRecoverable : Obligations.DivisionByZeroIsRecoverable := by
  constructor
  · intro o s hc hz
    obtain ⟨t, hexec, hregs, hflags, hrest⟩ := completes_of_retireNoWrite (exec_div_zero hc hz)
    exact ⟨t, hexec, hflags, hregs, hrest⟩
  · intro s t h hs ht
    obtain rfl | ⟨e, rfl⟩ | ⟨i, ha, hf, hx⟩ := step_next_cases h
    · exact absurd ht hs
    · exact absurd ht (by simpa using hs)
    · obtain ⟨o, rfl, hc, hz⟩ := hx.div_zero_of_flags_V (by rwa [State.start_flags]) ht
      rw [State.start_flags] at hc
      rw [operand2_start] at hz
      exact ⟨o, ⟨ha, hf, hc⟩, hz⟩

/-! ## Load-store (R131 to R134) -/

/-- Settles O22: LOAD of a memory word retires with it. -/
theorem loadFromMemory : Obligations.LoadFromMemory := by
  intro o s hc ea hb hi
  exact completes_of_retire ((exec_load hc).trans (loadEffect_cell hb hi o.rt))

/-- Settles O23: LOAD from the input port retires with the head, from the state that has taken it. -/
theorem loadFromInputPort : Obligations.LoadFromInputPort := by
  intro o s v q hc ea hb hi hq
  refine ⟨_, (exec_load hc).trans (loadEffect_port hb hi hq o.rt), ?_, State.retire_flags .., fun a => ?_,
    State.retire_inq .., State.retire_outq .., State.retire_cfg .., State.retire_fsm .., State.retire_fault ..⟩
  · exact (WritesReg.retire ..).of_regs_eq rfl
  · rw [State.retire_mem, State.setInq_mem]

/-- Settles O24: STORE to a memory word retires from the state with that word written. -/
theorem storeToMemory : Obligations.StoreToMemory := by
  intro o s hc ea hb ho
  refine ⟨_, (exec_store hc).trans (storeEffect_cell hb ho o.rt), ?_, State.retireNoWrite_flags .., fun a => ?_,
    ⟨State.retireNoWrite_inq .., State.retireNoWrite_outq ..⟩, State.retireNoWrite_cfg ..,
    State.retireNoWrite_fsm .., State.retireNoWrite_fault ..⟩
  · exact (WritesNoReg.retireNoWrite ..).of_regs_eq rfl
  · rw [State.retireNoWrite_mem, State.setMem_mem, Memory.read_write]

/-- Settles O25: STORE to the output port retires from the state that has put the value out. -/
theorem storeToOutputPort : Obligations.StoreToOutputPort := by
  intro o s hc ea hb ho
  refine ⟨_, (exec_store hc).trans (storeEffect_port hb ho o.rt), ?_, State.retireNoWrite_flags .., fun a => ?_,
    State.retireNoWrite_inq .., State.retireNoWrite_outq .., State.retireNoWrite_cfg .., State.retireNoWrite_fsm ..,
    State.retireNoWrite_fault ..⟩
  · exact (WritesNoReg.retireNoWrite ..).of_regs_eq rfl
  · rw [State.retireNoWrite_mem, State.emit_mem]

/-- Settles O26: both accesses take their fault, which is a record update. -/
theorem accessOutOfBoundsTakesFault : Obligations.AccessOutOfBoundsTakesFault := by
  intro o s hc ea hout
  have hb : ¬ s.inBounds ea := Nat.not_lt.mpr hout
  exact ⟨(exec_load hc).trans (loadEffect_out_of_bounds hb o.rt),
    (exec_store hc).trans (storeEffect_out_of_bounds hb o.rt)⟩

/-! ## HALT (R140) -/

/-- Settles O27: HALT retires, from the halted state, with the flags it found. -/
theorem haltExecutes : Obligations.HaltExecutes := by
  intro o s hc
  refine ⟨_, exec_halt hc, State.retireNoWrite_fsm .., ?_, State.retireNoWrite_flags .., fun a => ?_,
    ⟨State.retireNoWrite_inq .., State.retireNoWrite_outq ..⟩, State.retireNoWrite_cfg ..,
    State.retireNoWrite_fault ..⟩
  · exact (WritesNoReg.retireNoWrite ..).of_regs_eq rfl
  · rw [State.retireNoWrite_mem, State.setFsm_mem]

end Sys2Proof.Machine
end

section
/-! PROOFS. The step and the FSM (40_cycle.md R90, R93, R101, R104; 60_exceptions.md R152, R155). How a step can leave
the FSM is said once (`step_fsm_cases`), and that the three causes of a fault each take it (`step_takes_fault`); a
step that does not go on is a blocked LOAD (`step_next_or_blocked`). -/

namespace Sys2Proof.Machine

/-- Settles O29: a cycle runs what it fetches, and start in Ready sets the FSM. -/
theorem stepRunsDecodedInstr : Obligations.StepRunsDecodedInstr := by
  intro s i hb hd
  constructor
  · intro hrun
    rw [step_running hrun, cycle_of_fetches ⟨hb, hd⟩]
  · intro hready
    rw [step_of_fetches (.inl hready) ⟨hb, hd⟩, State.start_of_ready hready]
    rfl

/-! ## Unknown opcodes (R93, R152) -/

theorem step_of_fetchesUnknown {s : State} (ha : s.Active) (hu : s.FetchesUnknown) :
    step s = .next (s.takeFault (.unknownOpcode (opField (s.mem.read s.pc.toNat)) s.pc)) := by
  obtain ⟨hb, hop⟩ := hu
  obtain ⟨hout, _⟩ | ⟨_, hs⟩ | ⟨i, ⟨_, hd⟩, _⟩ := step_cases ha
  · exact absurd hb hout
  · rw [hs, State.takeFault_start]
  · exact absurd (decode_ok hd).2.2 (Nat.not_le.mpr hop)

/-- Settles O34: the fault taken is the record update stated. -/
theorem unknownOpcodeFaults : Obligations.UnknownOpcodeFaults := by
  intro s ha hu op
  have hop : op = opField (s.mem.read s.pc.toNat) := extractLsb'_eq_opField _
  rw [step_of_fetchesUnknown ha hu, hop]
  rfl

/-! ## How a step leaves the FSM (R90) -/

/-- What makes the next cycle end Faulted. -/
abbrev State.FaultCause (s : State) : Prop := ¬ s.inBounds s.pc ∨ s.FetchesUnknown ∨ s.AccessesOutOfBounds

theorem step_takes_fault {s : State} (ha : s.Active) (hc : s.FaultCause) : ∃ e, step s = .next (s.takeFault e) := by
  obtain hout | hu | ⟨o, hx | hx, hout⟩ := hc
  · exact ⟨_, step_of_pc_out_of_bounds ha hout⟩
  · exact ⟨_, step_of_fetchesUnknown ha hu⟩
  · exact ⟨_, step_load_out_of_bounds hx hout⟩
  · exact ⟨_, step_store_out_of_bounds hx hout⟩

/-- An instruction keeps the FSM, halts, or faults on its access; only the last changes the record. -/
theorem ExecTo.fsm_cases {s t : State} {i : Instr} (h : ExecTo s i t) :
    (t.fsm = s.fsm ∧ t.fault = s.fault) ∨
    (t.fsm = .halted ∧ t.fault = s.fault ∧ ∃ o, i = .halt o ∧ condTrue o.mask s.flags = true) ∨
    (∃ o e, (i = .load o ∨ i = .store o) ∧ condTrue o.mask s.flags = true ∧ ¬ s.inBounds (effectiveAddress o s) ∧
      t = s.takeFault e) := by
  cases h with
  | halt hc => exact .inr (.inl ⟨State.retireNoWrite_fsm .., State.retireNoWrite_fault .., _, rfl, hc⟩)
  | loadFault hc hout => exact .inr (.inr ⟨_, _, .inl rfl, hc, hout, rfl⟩)
  | storeFault hc hout => exact .inr (.inr ⟨_, _, .inr rfl, hc, hout, rfl⟩)
  | masked => exact .inl ⟨s.advancePc_fsm, s.advancePc_fault⟩
  | divZero | storeCell | storePort => exact .inl ⟨State.retireNoWrite_fsm .., State.retireNoWrite_fault ..⟩
  | add | sub | mul | div | loadCell | loadPort => exact .inl ⟨State.retire_fsm .., State.retire_fault ..⟩

/-- A step of an active CORE goes on Running, halts, or takes a fault it has a cause for. -/
theorem step_fsm_cases {s t : State} (ha : s.Active) (h : step s = .next t) :
    (t.fsm = .running ∧ t.fault = s.fault) ∨
    (t.fsm = .halted ∧ t.fault = s.fault ∧ ∃ o, s.Executes (.halt o)) ∨
    (s.FaultCause ∧ ∃ e, t = s.takeFault e) := by
  by_cases hcause : s.FaultCause
  · obtain ⟨e, he⟩ := step_takes_fault ha hcause
    exact .inr (.inr ⟨hcause, e, Host.Outcome.next.inj (h.symm.trans he)⟩)
  obtain ⟨hout, _⟩ | ⟨hu, _⟩ | ⟨i, hf, hs⟩ := step_cases ha
  · exact absurd (.inl hout) hcause
  · exact absurd (.inr (.inl hu)) hcause
  obtain ⟨hfsm, hfault⟩ | ⟨hfsm, hfault, o, rfl, hc⟩ | ⟨o, e, hi, hc, hout, _⟩ :=
    (exec_next (hs.symm.trans h)).fsm_cases
  · exact .inl ⟨hfsm.trans (State.start_fsm_of_active ha), hfault.trans s.start_fault⟩
  · rw [State.start_flags] at hc
    exact .inr (.inl ⟨hfsm, hfault.trans s.start_fault, o, ha, hf, hc⟩)
  · rw [State.start_flags] at hc
    rw [effectiveAddress_start, State.inBounds_start] at hout
    have hx : s.Executes (.load o) ∨ s.Executes (.store o) := by
      rcases hi with rfl | rfl
      · exact .inl ⟨ha, hf, hc⟩
      · exact .inr ⟨ha, hf, hc⟩
    exact absurd (.inr (.inr ⟨o, hx, hout⟩)) hcause

/-- Settles O38: of the three ends of a step only a fault taken is Faulted. -/
theorem faultsArePrecise : Obligations.FaultsArePrecise := by
  intro s t ha h hfaulted
  obtain ⟨hfsm, _⟩ | ⟨hfsm, _⟩ | ⟨_, e, rfl⟩ := step_fsm_cases ha h
  · exact absurd (hfsm.symm.trans hfaulted) (by decide)
  · exact absurd (hfsm.symm.trans hfaulted) (by decide)
  · exact ⟨e, rfl⟩

/-- A step of a terminal state stays there. -/
theorem eq_of_step_terminal {s t : State} (hended : s.fsm = .halted ∨ s.fsm = .faulted) (h : step s = .next t) :
    t = s :=
  Host.Outcome.next.inj (h.symm.trans (step_terminal hended))

/-- Settles O31: each row's own step gives its end, and the last row is what `step_fsm_cases` leaves. -/
theorem fsmTransitions : Obligations.FsmTransitions := by
  refine ⟨fun s h => congrArg State.fsm (State.start_of_ready h), fun s t h => ⟨fun hs => ?_, fun hs => ?_, fun ha =>
    ⟨fun ⟨o, hx⟩ => ?_, fun hcause => ?_, fun hhalt hcause => ?_⟩⟩⟩
  · exact (congrArg State.fsm (eq_of_step_terminal (.inl hs) h)).trans hs
  · exact (congrArg State.fsm (eq_of_step_terminal (.inr hs) h)).trans hs
  · have ⟨_, _, hc⟩ := hx
    rw [step_of_executes hx, exec_halt (by rwa [State.start_flags])] at h
    cases h
    exact State.retireNoWrite_fsm ..
  · obtain ⟨e, he⟩ := step_takes_fault ha hcause
    rw [Host.Outcome.next.inj (h.symm.trans he)]
    exact s.takeFault_fsm e
  · obtain ⟨hfsm, _⟩ | ⟨_, _, hx⟩ | ⟨hc, _⟩ := step_fsm_cases ha h
    · exact hfsm
    · exact absurd hx hhalt
    · exact absurd hc hcause

/-! ## Blocked on input (R104) -/

theorem loadEffect_blocked {s : State} {ea : Word} (hb : s.inBounds ea) (hi : ea = s.cfg.ioInAddr) (hq : s.inq = [])
    (rt : Reg) : loadEffect rt ea s = .fault .blockedOnInput := by
  rw [loadEffect, loadUnit, if_pos ⟨hb, hi⟩, inRead, hq]

theorem step_blocked {s : State} (h : s.Blocked) : step s = .fault .blockedOnInput := by
  obtain ⟨o, hx, hb, hi, hq⟩ := h
  rw [step_load hx]
  exact loadEffect_blocked ((s.inBounds_start _).mpr hb) (by rwa [State.start_cfg]) (by rwa [State.start_inq]) o.rt

/-- A step goes on or is blocked. -/
theorem step_next_or_blocked (s : State) : (∃ t, step s = .next t) ∨ (step s = .fault .blockedOnInput ∧ s.Blocked) := by
  by_cases ha : s.Active
  · obtain ⟨_, hs⟩ | ⟨_, hs⟩ | ⟨i, hf, hs⟩ := step_cases ha
    · exact .inl ⟨_, hs⟩
    · exact .inl ⟨_, hs⟩
    · obtain ⟨t, ht, _⟩ | ⟨hfault, o, rfl, hc, hb, hi, hq⟩ := exec_cases i s.start
      · exact .inl ⟨t, hs.trans ht⟩
      · rw [State.start_flags] at hc
        rw [effectiveAddress_start, State.inBounds_start] at hb
        rw [effectiveAddress_start, State.start_cfg] at hi
        rw [State.start_inq] at hq
        exact .inr ⟨hs.trans hfault, o, ⟨ha, hf, hc⟩, hb, hi, hq⟩
  · exact .inl ⟨s, step_terminal (State.ended_of_not_active ha)⟩

/-- Input supplied to a blocked CORE is what its LOAD takes. -/
theorem step_supplyInput_of_blocked {s : State} (h : s.Blocked) (v : Word) (vs : List Word) :
    ∃ t, step (s.supplyInput (v :: vs)) = .next t := by
  obtain ⟨o, hx, hb, hi, hq⟩ := h
  have hin : (s.supplyInput (v :: vs)).inq = v :: vs := congrArg (· ++ v :: vs) hq
  obtain ⟨t, ht, _⟩ := step_load_port (s := s.supplyInput (v :: vs)) (o := o) hx hb hi hin
  exact ⟨t, ht⟩

/-- Settles O36: a step goes on or is blocked, and a blocked one goes on with input. -/
theorem stopsOnlyWhenBlocked : Obligations.StopsOnlyWhenBlocked :=
  fun s => ⟨fun hb => ⟨step_blocked hb, step_supplyInput_of_blocked hb⟩,
    fun hb => (step_next_or_blocked s).resolve_right fun h => hb h.2⟩

end Sys2Proof.Machine
end

section
/-! PROOFS. The invariant (00_scope.md R8, 10_state.md R21, R28, R29, R33): each part is kept by every step for a
reason of its own, read off `step_next_cases`, the data a step changes or the way it leaves the FSM. -/

namespace Sys2Proof.Machine

/-! ## Construction -/

theorem readReg_construct (c : Config) (q : List Word) (j : Reg) :
    (State.construct c q).readReg j = if j = 15 then c.startAddr else 0 := by
  unfold State.readReg State.construct
  by_cases h0 : j = 0
  · subst h0; rfl
  · simp [h0, Vector.getElem_set, Fin.ext_iff, eq_comm]

/-- Settles O45: a register is read from the constructed file, and every other piece is a field. -/
theorem constructionValues : Obligations.ConstructionValues :=
  ⟨fun c q => ⟨rfl, rfl, fun j hj => (readReg_construct c q j).trans (if_neg hj), readReg_construct c q 15, rfl, rfl,
    fun _ => rfl, rfl, rfl, rfl⟩, Config.vectors, [], rfl, by decide⟩

theorem inv_construct {c : Config} (hc : c.wf) (q : List Word) : (State.construct c q).Inv where
  cfg_wf := hc
  mem_wf := Memory.wf_nil
  mem_below := Memory.below_nil _
  x0_zero := by simp [State.construct]
  fault_iff := by simp [State.construct]

/-- Settles O46: the parameters of the test vectors meet their constraints. -/
theorem invHoldsAtReset : Obligations.InvHoldsAtReset :=
  ⟨fun _ q hc => inv_construct hc q, inv_construct (by decide) []⟩

/-! ## Every step -/

/-- Settles O48: it is `step_keeps_cfg`. -/
theorem parametersNeverChange : Obligations.ParametersNeverChange := fun _ _ => step_keeps_cfg

section Step
variable {s t : State} (h : step s = .next t)
include h

theorem step_keeps_mem_wf (hm : s.mem.wf) : t.mem.wf := by
  cases dataEffect_of_step h with
  | none he _ | input _ _ _ _ _ _ he | output _ _ _ _ _ he => rwa [he]
  | store o _ _ _ he _ =>
    rw [he]
    exact Memory.wf_write hm _ _

theorem step_keeps_mem_below (hm : s.mem.below s.cfg.memWords) : t.mem.below t.cfg.memWords := by
  rw [step_keeps_cfg h]
  cases dataEffect_of_step h with
  | none he _ | input _ _ _ _ _ _ he | output _ _ _ _ _ he => rwa [he]
  | store o _ hb _ he _ =>
    rw [he]
    exact Memory.below_write hm hb _

theorem step_keeps_stored_x0 : t.regs[0] = s.regs[0] := by
  obtain rfl | ⟨e, rfl⟩ | ⟨i, _, _, hx⟩ := step_next_cases h
  · rfl
  · simp
  · cases hx <;> simp

theorem step_keeps_fault_iff (hf : s.fault.isSome ↔ s.fsm = .faulted) : t.fault.isSome ↔ t.fsm = .faulted := by
  by_cases ha : s.Active
  · have hnone : ¬ s.fault.isSome := by
      rw [hf]
      rcases ha with ha | ha <;> simp [ha]
    obtain ⟨hfsm, hfault⟩ | ⟨hfsm, hfault, _⟩ | ⟨_, e, rfl⟩ := step_fsm_cases ha h
    · simp [hfault, hfsm, hnone]
    · simp [hfault, hfsm, hnone]
    · simp
  · rwa [eq_of_step_terminal (State.ended_of_not_active ha) h]

end Step

/-- Settles O47: each part of the invariant is kept. -/
theorem invIsKeptByEveryStep : Obligations.InvIsKeptByEveryStep := fun _ _ hinv h =>
  { cfg_wf := (step_keeps_cfg h).symm ▸ hinv.cfg_wf
    mem_wf := step_keeps_mem_wf h hinv.mem_wf
    mem_below := step_keeps_mem_below h hinv.mem_below
    x0_zero := (step_keeps_stored_x0 h).trans hinv.x0_zero
    fault_iff := step_keeps_fault_iff h hinv.fault_iff }

end Sys2Proof.Machine
end

section
/-! PROOFS. The store of x[0] (10_state.md R21, R34). Writing it is a rearrangement of the register file that carries
every register to itself, so it commutes with every instruction, as renaming does, and with the step around it. -/

namespace Sys2Proof.Machine

section Carried
variable {g : Vector Word 16 → Vector Word 16} (hg : ∀ i, Carries g i i)
include hg

theorem exec_onRegs (i : Instr) (s : State) : exec i (s.onRegs g) = mapNext (State.onRegs g) (exec i s) := by
  have h : CarriesOperands g (Equiv.refl Reg) i.operands := ⟨hg _, hg _, hg _, hg 15, rfl⟩
  have hexec := exec_renameInstr_onRegs h s
  rwa [renameInstr_refl] at hexec

theorem runWord_onRegs (w : Word) (s : State) : runWord w (s.onRegs g) = mapNext (State.onRegs g) (runWord w s) := by
  rw [runWord, runWord]
  cases decode w with
  | ok i => exact exec_onRegs hg i s
  | error e =>
    obtain ⟨op⟩ := e
    exact congrArg (fun pc => Host.Outcome.next ((s.onRegs g).takeFault (.unknownOpcode op pc))) ((hg 15).pc_eq s)

theorem cycle_onRegs (s : State) : cycle (s.onRegs g) = mapNext (State.onRegs g) (cycle s) := by
  have hfetch : (s.onRegs g).fetch = s.fetch := by
    rw [State.fetch, State.fetch, (hg 15).pc_eq, State.memRead_onRegs]
  rw [cycle, cycle, hfetch]
  cases s.fetch with
  | ok w => exact runWord_onRegs hg w s
  | error e => rfl

theorem step_onRegs (s : State) : step (s.onRegs g) = mapNext (State.onRegs g) (step s) := by
  have hfsm : (s.onRegs g).fsm = s.fsm := rfl
  have hstart : (s.onRegs g).start = s.start.onRegs g := by
    rw [State.start, State.start, apply_ite (State.onRegs g)]
    rfl
  rw [step, step, hfsm]
  cases s.fsm with
  | ready => exact (congrArg cycle hstart).trans (cycle_onRegs hg s.start)
  | running => exact cycle_onRegs hg s
  | halted | faulted => rfl

end Carried

theorem carries_setZero (v : Word) (i : Reg) : Carries (fun r => r.set 0 v) i i := by
  by_cases hi : i = 0
  · subst hi
    exact ⟨fun _ => rfl, fun _ _ => rfl⟩
  · have hval : (0 : Nat) ≠ i := fun e => hi (Fin.ext e.symm)
    constructor
    · intro s
      simp [State.readReg, State.onRegs, hi, hval]
    · intro s w
      simp [State.writeReg, State.onRegs, hi, Vector.set_comm _ _ hval]

/-- Settles O41: the step commutes with writing the store of x[0]. -/
theorem storeOfX0IsNeverObserved : Obligations.StoreOfX0IsNeverObserved :=
  fun s v => step_onRegs (carries_setZero v) s

end Sys2Proof.Machine
end

section
/-! PROOFS. The host interface (70_reset_and_hazards.md R181 to R183). What a loaded program leaves at each address is
an induction over its words; what `run` returns is one over its budget, in which each round is a step or is blocked
(`runLoop_of_running`). -/

namespace Sys2Proof.Machine

/-! ## loadProgram (R181) -/

theorem Memory.read_load_outside {a b : Nat} (ws : List Word) (m : Memory) (h : b < a ∨ a + ws.length ≤ b) :
    (m.load a ws).read b = m.read b := by
  induction ws generalizing m a with
  | nil => rfl
  | cons w ws ih =>
    rw [List.length_cons] at h
    rw [Memory.load, ih _ (by omega), Memory.read_write_ne _ _ (by omega)]

theorem Memory.read_load {a i : Nat} {w : Word} {ws : List Word} (m : Memory) (h : ws[i]? = some w) :
    (m.load a ws).read (a + i) = w := by
  induction ws generalizing m a i with
  | nil => cases h
  | cons u ws ih =>
    cases i with
    | zero =>
      cases h
      rw [Memory.load, Memory.read_load_outside ws _ (.inl (by omega)), Nat.add_zero, Memory.read_write_same]
    | succ i =>
      rw [List.getElem?_cons_succ] at h
      rw [Memory.load, show a + (i + 1) = a + 1 + i by omega]
      exact ih _ h

theorem Memory.wf_load {m : Memory} (h : m.wf) (a : Nat) (ws : List Word) : (m.load a ws).wf := by
  induction ws generalizing m a with
  | nil => exact h
  | cons w ws ih => exact ih (Memory.wf_write h a w) (a + 1)

theorem Memory.below_load {m : Memory} {n a : Nat} {ws : List Word} (h : m.below n) (hend : a + ws.length ≤ n) :
    (m.load a ws).below n := by
  induction ws generalizing m a with
  | nil => exact h
  | cons w ws ih =>
    rw [List.length_cons] at hend
    exact ih (Memory.below_write h (by omega) w) (by omega)

theorem inv_setMem {s : State} {m : Memory} (h : s.Inv) (hwf : m.wf) (hbelow : m.below s.cfg.memWords) :
    (s.setMem m).Inv where
  cfg_wf := h.cfg_wf
  mem_wf := hwf
  mem_below := hbelow
  x0_zero := h.x0_zero
  fault_iff := h.fault_iff

/-- Settles O49: the three branches, and what `Memory.load` leaves at each address. -/
theorem loadProgramCopiesWords : Obligations.LoadProgramCopiesWords := by
  refine fun s ws a => ⟨fun hready => if_pos hready, fun hready hout => ?_, fun hready hin => ?_⟩
  · rw [State.loadProgram, if_neg (not_not_intro hready), if_neg (Nat.not_le.mpr hout)]
  · refine ⟨s.setMem (s.mem.load a ws), ?_, rfl, fun i w => Memory.read_load s.mem,
      fun b => Memory.read_load_outside ws s.mem, fun hinv => ?_⟩
    · rw [State.loadProgram, if_neg (not_not_intro hready), if_pos hin]
    · exact inv_setMem hinv (Memory.wf_load hinv.mem_wf a ws) (Memory.below_load hinv.mem_below hin)

/-! ## step (R182) -/

theorem hostStep_of_next {s t : State} (h : step s = .next t) : s.hostStep = .returned t := by
  rw [State.hostStep, h]

theorem hostStep_of_blocked {s : State} (h : s.Blocked) : s.hostStep = .blocked s.start := by
  rw [State.hostStep, step_blocked h]

theorem State.start_of_active {s : State} (ha : s.Active) : s.start = { s with fsm := .running } := by
  rcases ha with hready | hrun
  · exact State.start_of_ready hready
  · rw [State.start_of_running hrun, ← hrun]

/-- Settles O51: a step goes on, and is returned, or is blocked, and its started state is shown. -/
theorem hostStepReturnsOrBlocks : Obligations.HostStepReturnsOrBlocks := by
  intro s
  obtain ⟨t, hnext⟩ | ⟨hfault, hb⟩ := step_next_or_blocked s
  · rw [hostStep_of_next hnext, hnext]
    exact ⟨fun u => ⟨fun h => congrArg _ (Call.returned.inj h), fun h => congrArg _ (Host.Outcome.next.inj h)⟩,
      fun u h => absurd h (by simp)⟩
  · rw [hostStep_of_blocked hb, hfault]
    have ⟨_, ⟨ha, _⟩, _⟩ := hb
    refine ⟨fun u => ⟨fun h => ?_, fun h => ?_⟩, fun u h => ⟨hb, ?_⟩⟩
    · cases h
    · cases h
    · exact (Call.blocked.inj h).symm.trans (State.start_of_active ha)

/-! ## run (R183) -/

theorem core_run_succ {s t : State} (h : step s = .next t) (k : Nat) :
    Host.Core.run Sys2Proof.core (k + 1) s = Host.Core.run Sys2Proof.core k t := by
  have hcore : Host.Core.step Sys2Proof.core s = .next t := h
  simp only [Host.Core.run, hcore]

/-- A Running CORE with budget left makes its step and goes round again, or stops blocked. -/
theorem runLoop_of_running {s : State} (hrun : s.fsm = .running) (budget n : Nat) :
    (∃ t, step s = .next t ∧ runLoop (budget + 1) n s = runLoop budget (n + 1) t) ∨
    (s.Blocked ∧ runLoop (budget + 1) n s = .blocked s) := by
  rw [runLoop, if_pos hrun, ← step_running hrun]
  obtain ⟨t, h⟩ | ⟨h, hb⟩ := step_next_or_blocked s
  · exact .inl ⟨t, h, by rw [h]⟩
  · exact .inr ⟨hb, by rw [h]⟩

/-- The states before the `n`-th step from `s` are Running, and that step leads to `t`. -/
def RunsTo (s : State) (n : Nat) (t : State) : Prop :=
  Host.Core.run Sys2Proof.core n s = .next t ∧
    ∀ k, k < n → ∃ u, Host.Core.run Sys2Proof.core k s = .next u ∧ u.fsm = .running

theorem RunsTo.zero (s : State) : RunsTo s 0 s := ⟨rfl, fun _ hk => absurd hk (Nat.not_lt_zero _)⟩

theorem RunsTo.head {s t u : State} {n : Nat} (hrun : s.fsm = .running) (hstep : step s = .next t)
    (h : RunsTo t n u) : RunsTo s (n + 1) u := by
  obtain ⟨hend, hbefore⟩ := h
  refine ⟨(core_run_succ hstep n).trans hend, fun k hk => ?_⟩
  cases k with
  | zero => exact ⟨s, rfl, hrun⟩
  | succ k =>
    rw [core_run_succ hstep]
    exact hbefore k (Nat.lt_of_succ_lt_succ hk)

/-- A loop that returns has made the steps it adds to its count; it left budget only in a state no longer Running. -/
theorem runLoop_returned {budget n m : Nat} {s t : State} (h : runLoop budget n s = .returned (t, m)) :
    ∃ k, m = n + k ∧ k ≤ budget ∧ RunsTo s k t ∧ (k < budget → t.fsm ≠ .running) := by
  induction budget generalizing n s with
  | zero =>
    cases h
    exact ⟨0, rfl, Nat.le_refl 0, .zero _, fun hk => absurd hk (Nat.not_lt_zero 0)⟩
  | succ budget ih =>
    by_cases hrun : s.fsm = .running
    · obtain ⟨u, hstep, hloop⟩ | ⟨_, hloop⟩ := runLoop_of_running hrun budget n
      · obtain ⟨k, hm, hk, hto, hend⟩ := ih (hloop.symm.trans h)
        exact ⟨k + 1, by omega, by omega, hto.head hrun hstep, fun hlt => hend (by omega)⟩
      · cases hloop.symm.trans h
    · rw [runLoop_of_ne_running hrun] at h
      cases h
      exact ⟨0, rfl, Nat.zero_le _, .zero _, fun _ => hrun⟩

/-- A loop that does not return has made fewer steps than its budget and is blocked. -/
theorem runLoop_blocked {budget n : Nat} {s u : State} (h : runLoop budget n s = .blocked u) :
    u.Blocked ∧ ∃ k, k < budget ∧ RunsTo s k u := by
  induction budget generalizing n s with
  | zero => cases h
  | succ budget ih =>
    by_cases hrun : s.fsm = .running
    · obtain ⟨t, hstep, hloop⟩ | ⟨hb, hloop⟩ := runLoop_of_running hrun budget n
      · obtain ⟨hb, k, hk, hto⟩ := ih (hloop.symm.trans h)
        exact ⟨hb, k + 1, by omega, hto.head hrun hstep⟩
      · cases hloop.symm.trans h
        exact ⟨hb, 0, Nat.zero_lt_succ _, .zero _⟩
    · rw [runLoop_of_ne_running hrun] at h
      cases h

theorem State.start_ne_ready (s : State) : s.start.fsm ≠ .ready := by
  rw [State.start_fsm]
  split
  · decide
  · assumption

theorem step_ne_ready {s t : State} (hs : s.fsm ≠ .ready) (h : step s = .next t) : t.fsm ≠ .ready := by
  by_cases ha : s.Active
  · obtain ⟨hfsm, _⟩ | ⟨hfsm, _⟩ | ⟨_, e, rfl⟩ := step_fsm_cases ha h
    · simp [hfsm]
    · simp [hfsm]
    · simp
  · rwa [eq_of_step_terminal (State.ended_of_not_active ha) h]

/-- A CORE once started is never Ready again. -/
theorem core_run_ne_ready {n : Nat} {s t : State} (hs : s.fsm ≠ .ready)
    (h : Host.Core.run Sys2Proof.core n s = .next t) :
    t.fsm ≠ .ready := by
  induction n generalizing s with
  | zero =>
    cases h
    exact hs
  | succ n ih =>
    obtain ⟨u, hu⟩ | ⟨hfault, _⟩ := step_next_or_blocked s
    · exact ih (step_ne_ready hs hu) ((core_run_succ hu n).symm.trans h)
    · have hcore : Host.Core.step Sys2Proof.core s = .fault .blockedOnInput := hfault
      simp only [Host.Core.run, hcore] at h
      cases h

theorem State.ended_of_ne {s : State} (hready : s.fsm ≠ .ready) (hrun : s.fsm ≠ .running) : s.Ended :=
  State.ended_of_not_active fun ha => ha.elim hready hrun

/-- Settles O50: run is its loop from the started state, with the count from 0. -/
theorem runIteratesStep : Obligations.RunIteratesStep := by
  refine fun s m => ⟨fun t n h => ?_, fun u h => ?_⟩
  · obtain ⟨k, hcount, hle, ⟨hend, hbefore⟩, hstop⟩ := runLoop_returned h
    obtain rfl : n = k := hcount.trans (Nat.zero_add k)
    exact ⟨hle, hend, hbefore, fun hlt => State.ended_of_ne (core_run_ne_ready s.start_ne_ready hend) (hstop hlt)⟩
  · obtain ⟨hb, k, hlt, hend, _⟩ := runLoop_blocked h
    exact ⟨hb, k, hlt, hend⟩

/-! ## Placing a word (log 7) -/

theorem State.storeAtPc_of_inBounds {s : State} (hb : s.inBounds s.pc) (w : Word) :
    s.storeAtPc w = s.setMem (s.mem.write s.pc.toNat w) := if_pos hb

/-- An active CORE whose pc is in bounds runs the word there from its started state. -/
theorem step_of_inBounds {s : State} (ha : s.Active) (hb : s.inBounds s.pc) :
    step s = runWord (s.mem.read s.pc.toNat) s.start := by
  have hb' : s.start.inBounds s.start.pc := by rwa [State.inBounds_start, State.pc_start]
  rw [step_active ha, cycle, State.fetch_ok hb', State.start_mem, State.pc_start]

/-- Settles O52: the placed word is what is read at the pc. -/
theorem placedWordRuns : Obligations.PlacedWordRuns := by
  intro s nbits w ha hb
  have ha' (m : Memory) : (s.setMem m).Active := ha
  have hb' (m : Memory) : (s.setMem m).inBounds (s.setMem m).pc := hb
  rw [State.withFetchWord, State.storeAtPc_of_inBounds hb, step_of_inBounds (ha' _) (hb' _), State.setMem_mem,
    State.pc_congr (State.setMem_regs s _), Memory.read_write_same]

end Sys2Proof.Machine
end

section
/-! PROOFS. The step refines the pseudocode of one cycle (40_cycle.md R101). The pseudocode's operations are those of
the model on the decoded fields; with these equations its ladder of checks is the model's, and each operation's arm is
the meaning of its instruction. -/

namespace Sys2Proof.Machine

/-! ## The pseudocode's operations -/

theorem refReg_eq_regField (w : Word) (lo : Nat) : refReg w lo = regField w lo :=
  Fin.ext (toNat_extractLsb'_eq_fieldUnsigned w 4 lo)

theorem refWriteReg_eq (s : State) (i : Reg) (v : Word) :
    refWriteReg s false i v = (s.writeReg i v, pcWrittenBy i) := by
  unfold refWriteReg State.writeReg pcWrittenBy
  by_cases h0 : i = 0
  · subst h0; rfl
  · by_cases h15 : i = 15 <;> simp [h0, h15]

theorem refSetFlags_eq_signFlag : refSetFlags = signFlag := by
  funext r
  rw [refSetFlags, signFlag, BitVec.msb_eq_toInt]
  simp only [decide_eq_true_eq]

theorem refSequence_refFinish (s : State) (rt : Reg) (v : Word) (f : CondCode) :
    refSequence s.pc (refFinish s rt v f) = .next (s.retire rt v f) := by
  rw [refFinish, refWriteReg_eq]
  rfl

theorem refSequence_false (s : State) (f : CondCode) :
    refSequence s.pc ({ s with flags := f }, false) = .next (s.retireNoWrite f) := rfl

theorem operand2_operandFields (w : Word) (s : State) :
    operand2 (operandFields w) s = s.readReg (regField w 10) + (w.extractLsb' 0 10).signExtend 32 :=
  congrArg (s.readReg (regField w 10) + ·) (wrap_disp_operandFields w)

/-! ## The checks before an operation -/

theorem refCycle_out_of_bounds {s : State} (hout : ¬ s.inBounds s.pc) :
    refCycle s = .next (s.takeFault (.memoryBounds s.pc .fetch s.pc)) := if_pos (Nat.not_lt.mp hout)

section Fetched
variable {s : State} (hb : s.inBounds s.pc)
include hb

theorem refCycle_unknown (hop : 6 < (opField (s.mem.read s.pc.toNat)).toNat) :
    refCycle s = .next (s.takeFault (.unknownOpcode (opField (s.mem.read s.pc.toNat)) s.pc)) := by
  rw [← extractLsb'_eq_opField] at hop ⊢
  exact (if_neg (Nat.not_le.mpr hb)).trans (if_pos hop)

variable {i : Instr} (hd : decode (s.mem.read s.pc.toNat) = .ok i)
include hd

theorem refCycle_masked (hc : condTrue i.operands.mask s.flags = false) : refCycle s = .next s.advancePc := by
  obtain ⟨hoperands, _, hop⟩ := decode_ok hd
  have hmask : (!condTrue (maskField (s.mem.read s.pc.toNat)) s.flags) = true := by
    rw [hoperands] at hc
    exact congrArg not hc
  rw [← extractLsb'_eq_opField] at hop
  exact (if_neg (Nat.not_le.mpr hb)).trans ((if_neg (Nat.not_lt.mpr hop)).trans (if_pos hmask))

/-! ## The operations -/

/-- The pseudocode executes what the model does: its arm for the opcode, on the decoded fields, is the meaning. -/
theorem refCycle_executes (hc : condTrue i.operands.mask s.flags = true) : refCycle s = exec i s := by
  obtain ⟨hoperands, hopcode, hop⟩ := decode_ok hd
  have hmask : ¬ (!condTrue (maskField (s.mem.read s.pc.toNat)) s.flags) = true := by
    have hcond : condTrue (maskField (s.mem.read s.pc.toNat)) s.flags = true := by rwa [hoperands] at hc
    simp [hcond]
  have hrt : regField (s.mem.read s.pc.toNat) 18 = i.operands.rt := by rw [hoperands]; rfl
  have hop1 : s.readReg (regField (s.mem.read s.pc.toNat) 14) = operand1 i.operands s := by rw [hoperands]; rfl
  have hop2 : s.readReg (regField (s.mem.read s.pc.toNat) 10) +
      ((s.mem.read s.pc.toNat).extractLsb' 0 10).signExtend 32 = operand2 i.operands s := by
    rw [hoperands, operand2_operandFields]
  rw [← extractLsb'_eq_opField] at hop
  refine (if_neg (Nat.not_le.mpr hb)).trans ((if_neg (Nat.not_lt.mpr hop)).trans ((if_neg hmask).trans ?_))
  have hpc : s.regs[15] = s.pc := rfl
  simp only [hpc, extractLsb'_eq_opField, ← hopcode, refReg_eq_regField, hrt, hop1, hop2, refSetFlags_eq_signFlag]
  cases i with
  | halt o => exact (exec_halt hc).symm
  | add o => exact (refSequence_refFinish ..).trans (exec_add hc).symm
  | sub o => exact (refSequence_refFinish ..).trans (exec_sub hc).symm
  | mul o =>
    rw [exec_mul (o := o) hc, wrap_mul_toInt]
    exact refSequence_refFinish ..
  | div o =>
    by_cases hz : operand2 o s = 0
    · exact (if_pos hz).trans (exec_div_zero hc hz).symm
    · rw [exec_div_nonzero (o := o) hc hz, wrap_tdiv_toInt]
      exact (if_neg hz).trans (refSequence_refFinish ..)
  | load o =>
    rw [exec_load (o := o) hc]
    obtain ⟨hout, h⟩ | ⟨hin, hi, hq, h⟩ | ⟨v, q, hin, hi, hq, h⟩ | ⟨hin, hi, h⟩ :=
      loadEffect_cases o.rt (effectiveAddress o s) s <;> rw [h]
    · exact if_pos (Nat.not_lt.mp hout)
    · refine (if_neg (Nat.not_le.mpr hin)).trans ((if_pos hi).trans ?_)
      rw [hq]
    · refine (if_neg (Nat.not_le.mpr hin)).trans ((if_pos hi).trans ?_)
      rw [hq]
      exact refSequence_refFinish (s.setInq q) ..
    · exact (if_neg (Nat.not_le.mpr hin)).trans ((if_neg hi).trans (refSequence_refFinish ..))
  | store o =>
    rw [exec_store (o := o) hc]
    obtain ⟨hout, h⟩ | ⟨hin, ho, h⟩ | ⟨hin, ho, h⟩ := storeEffect_cases o.rt (effectiveAddress o s) s <;> rw [h]
    · exact if_pos (Nat.not_lt.mp hout)
    · exact (if_neg (Nat.not_le.mpr hin)).trans (if_pos ho)
    · exact (if_neg (Nat.not_le.mpr hin)).trans (if_neg ho)

end Fetched

theorem cycle_eq_refCycle (s : State) : cycle s = refCycle s := by
  obtain ⟨hout, h⟩ | ⟨⟨hb, hop⟩, h⟩ | ⟨i, ⟨hb, hd⟩, h⟩ := cycle_cases s <;> rw [h]
  · rw [refCycle_out_of_bounds hout]
  · rw [refCycle_unknown hb hop]
  · cases hc : condTrue i.operands.mask s.flags with
    | false => rw [refCycle_masked hb hd hc, exec_masked hc]
    | true => rw [refCycle_executes hb hd hc]

/-- Settles O30: the step of a Running state is a cycle. -/
theorem stepRefinesCycle : Obligations.StepRefinesCycle := fun s hrun => (step_running hrun).trans (cycle_eq_refCycle s)

end Sys2Proof.Machine
end
